-- ==== Sys2Proof/Word.lean ====
section
/-!
DEFINITION. The words of ECC16x8 (00_scope.md R3, R9): bus values of fixed width, bit 0 the least significant.
-/

namespace Sys2Proof

/-- A command word, RES, and the whole of STAT: 32 bits (R35, R36, R90). -/
abbrev Word := BitVec 32

/-- A codeword: 16 bits, the data word then 8 parity bits (R12). Also one word of TX, RX or LOG. -/
abbrev Codeword := BitVec 16

/-- A data word: 8 bits, whose unsigned value is a code point (R9, R12). -/
abbrev DataWord := BitVec 8

/-- A syndrome, or a column of the parity-check matrix: 8 bits (R12, R34). -/
abbrev Syndrome := BitVec 8

/-- H_DATA: the data rows 0..7 of the parity-check matrix (R7, R33). In row j, column i of H is position i, so column 0 is
bus bit 7. -/
abbrev HData := Vector (BitVec 8) 8

end Sys2Proof
end

