-- ==== Sys2Proof/Syntax.lean ====
section
/-!
DEFINITION. The commands of ECC16x8: one constructor per row of the opcode map (30_encoding.md R92). Indices, counts and code
points are unsigned numbers (R91) and are held as numbers; codewords are bit vectors. A field that must be zero (R93)
is no operand.
-/

namespace Sys2Proof

inductive Instr where
  /-- NOP (R210): do nothing. -/
  | nop
  /-- ENC v (R142): encode the code point v. -/
  | enc (v : Nat)
  /-- SYN c (R184): the syndrome of c. -/
  | syn (c : Codeword)
  /-- DEC c (R185): classify and repair c. -/
  | dec (c : Codeword)
  /-- COL i (R122): column i of H. -/
  | col (i : Nat)
  /-- ROW j (R123): row j of H. -/
  | row (j : Nat)
  /-- ENCW k, v (R143): encode the code point v into TX[k]. -/
  | encw (k v : Nat)
  /-- WRTX k, c (R211): write c into TX[k]. -/
  | wrtx (k : Nat) (c : Codeword)
  /-- RDTX k (R212): read TX[k]. -/
  | rdtx (k : Nat)
  /-- RDRX k (R213): read RX[k]. -/
  | rdrx (k : Nat)
  /-- INJ l, n (R160): corrupt the batch TX[0..l-1] with n distinct flips, into RX. -/
  | inj (l n : Nat)
  /-- DECW k (R186): classify and repair RX[k]. -/
  | decw (k : Nat)
  /-- LOGRD e (R163): read entry e of the flip log. -/
  | logrd (e : Nat)
  /-- CHK (R125): run the matrix self-check. -/
  | chk
  /-- Reserved opcode 0xE with whatever its other 28 bits hold (R94). -/
  | reservedE (x : BitVec 28)
  /-- Reserved opcode 0xF with whatever its other 28 bits hold (R94). -/
  | reservedF (x : BitVec 28)
  deriving DecidableEq, Repr

end Sys2Proof
end

