-- ==== Sys2Proof/WellFormed.lean ====
section
/-!
DEFINITION. Which commands can be written as a word: every operand fits its field (30_encoding.md R90, R97). An operand that
fits its field but lies out of range is well formed; it fails in the block (R93).
-/

namespace Sys2Proof

/-- The operand fits the 12-bit field K: the assembler refuses K > 4095 (R97). -/
def fitsK (k : Nat) : Bool := decide (k ≤ 4095)

/-- The operand fits the 16-bit field V: the assembler refuses V > 65535 (R97). -/
def fitsV (v : Nat) : Bool := decide (v ≤ 65535)

/-- Every operand fits its field (R97). -/
def Instr.wellFormed : Instr → Bool
  | .nop => true
  | .enc v => fitsV v
  | .syn _ => true
  | .dec _ => true
  | .col i => fitsK i
  | .row j => fitsK j
  | .encw k v => fitsK k && fitsV v
  | .wrtx k _ => fitsK k
  | .rdtx k => fitsK k
  | .rdrx k => fitsK k
  | .inj l n => fitsK l && fitsV n
  | .decw k => fitsK k
  | .logrd e => fitsV e
  | .chk => true
  | .reservedE _ => true
  | .reservedF _ => true

end Sys2Proof
end

