-- ==== Sys2Proof/Decode.lean ====
section
/-!
DEFINITION. Decoding and encoding of command words (30_encoding.md R90 to R96). Decoding is total and depends on the word
alone (R95, R96). A word that is no command is refused by name; the step answers it with ILLEGAL_CMD (R93).
-/

namespace Sys2Proof

/-! ## The format C (R90) -/

/-- OP = w[31:28]. -/
def opField (w : Word) : BitVec 4 := w.extractLsb' 28 4

/-- K = w[27:16]. -/
def kField (w : Word) : BitVec 12 := w.extractLsb' 16 12

/-- V = w[15:0]. -/
def vField (w : Word) : BitVec 16 := w.extractLsb' 0 16

/-- The word with these fields. -/
def formatC (op : BitVec 4) (k : BitVec 12) (v : BitVec 16) : Word := (op ++ k) ++ v

/-! ## The opcode map (R92) -/

/-- One row of the opcode map: a word w is the command when (w AND mask) = pattern. -/
structure OpcodeRow where
  op : BitVec 4
  mnemonic : String
  pattern : Word
  mask : Word
  deriving DecidableEq, Repr

def rowNop : OpcodeRow := ⟨0x0, "NOP", 0x00000000, 0xFFFFFFFF⟩
def rowEnc : OpcodeRow := ⟨0x1, "ENC", 0x10000000, 0xFFFF0000⟩
def rowSyn : OpcodeRow := ⟨0x2, "SYN", 0x20000000, 0xFFFF0000⟩
def rowDec : OpcodeRow := ⟨0x3, "DEC", 0x30000000, 0xFFFF0000⟩
def rowCol : OpcodeRow := ⟨0x4, "COL", 0x40000000, 0xF000FFFF⟩
def rowRow : OpcodeRow := ⟨0x5, "ROW", 0x50000000, 0xF000FFFF⟩
def rowEncw : OpcodeRow := ⟨0x6, "ENCW", 0x60000000, 0xF0000000⟩
def rowWrtx : OpcodeRow := ⟨0x7, "WRTX", 0x70000000, 0xF0000000⟩
def rowRdtx : OpcodeRow := ⟨0x8, "RDTX", 0x80000000, 0xF000FFFF⟩
def rowRdrx : OpcodeRow := ⟨0x9, "RDRX", 0x90000000, 0xF000FFFF⟩
def rowInj : OpcodeRow := ⟨0xA, "INJ", 0xA0000000, 0xF0000000⟩
def rowDecw : OpcodeRow := ⟨0xB, "DECW", 0xB0000000, 0xF000FFFF⟩
def rowLogrd : OpcodeRow := ⟨0xC, "LOGRD", 0xC0000000, 0xFFFF0000⟩
def rowChk : OpcodeRow := ⟨0xD, "CHK", 0xD0000000, 0xFFFFFFFF⟩

/-- The fourteen command rows of R92. Opcodes 0xE and 0xF have none. -/
def opcodeRows : List OpcodeRow :=
  [rowNop, rowEnc, rowSyn, rowDec, rowCol, rowRow, rowEncw] ++
  [rowWrtx, rowRdtx, rowRdrx, rowInj, rowDecw, rowLogrd, rowChk]

/-- The word is the command of the row (R92). -/
def OpcodeRow.selects (r : OpcodeRow) (w : Word) : Bool := decide (w &&& r.mask = r.pattern)

/-! ## Decoding (R96) -/

/-- Why a word is no command. The reserved opcodes are not among the reasons: they are rows of the table and decode to
constructors of their own, whose meaning is the error response (R94, log entry 9). -/
inductive DecodeError where
  /-- A field that must be zero is not zero (R93). -/
  | mustBeZero
  deriving DecidableEq, Repr

/-- The command i if the word is the command of row r, else illegal (R96). -/
def accept (r : OpcodeRow) (w : Word) (i : Instr) : Except DecodeError Instr :=
  if r.selects w then .ok i else .error .mustBeZero

/-- Decode a command word (R91, R92, R96). -/
def decode (w : Word) : Except DecodeError Instr :=
  match (opField w).toNat with
  | 0x0 => accept rowNop w .nop
  | 0x1 => accept rowEnc w (.enc (vField w).toNat)
  | 0x2 => accept rowSyn w (.syn (vField w))
  | 0x3 => accept rowDec w (.dec (vField w))
  | 0x4 => accept rowCol w (.col (kField w).toNat)
  | 0x5 => accept rowRow w (.row (kField w).toNat)
  | 0x6 => accept rowEncw w (.encw (kField w).toNat (vField w).toNat)
  | 0x7 => accept rowWrtx w (.wrtx (kField w).toNat (vField w))
  | 0x8 => accept rowRdtx w (.rdtx (kField w).toNat)
  | 0x9 => accept rowRdrx w (.rdrx (kField w).toNat)
  | 0xA => accept rowInj w (.inj (kField w).toNat (vField w).toNat)
  | 0xB => accept rowDecw w (.decw (kField w).toNat)
  | 0xC => accept rowLogrd w (.logrd (vField w).toNat)
  | 0xD => accept rowChk w .chk
  | 0xE => .ok (.reservedE (w.extractLsb' 0 28))
  | _ => .ok (.reservedF (w.extractLsb' 0 28))

/-! ## Encoding (R90, R92, R97) -/

/-- An operand in the field K: unchanged when it fits (R97). -/
def toK (k : Nat) : BitVec 12 := BitVec.ofNat 12 k

/-- An operand in the field V: unchanged when it fits (R97). -/
def toV (v : Nat) : BitVec 16 := BitVec.ofNat 16 v

/-- The word of a well-formed command (R90, R92). -/
def encode : Instr → Word
  | .nop => formatC 0x0 0 0
  | .enc v => formatC 0x1 0 (toV v)
  | .syn c => formatC 0x2 0 c
  | .dec c => formatC 0x3 0 c
  | .col i => formatC 0x4 (toK i) 0
  | .row j => formatC 0x5 (toK j) 0
  | .encw k v => formatC 0x6 (toK k) (toV v)
  | .wrtx k c => formatC 0x7 (toK k) c
  | .rdtx k => formatC 0x8 (toK k) 0
  | .rdrx k => formatC 0x9 (toK k) 0
  | .inj l n => formatC 0xA (toK l) (toV n)
  | .decw k => formatC 0xB (toK k) 0
  | .logrd e => formatC 0xC 0 (toV e)
  | .chk => formatC 0xD 0 0
  | .reservedE x => (0xE : BitVec 4) ++ x
  | .reservedF x => (0xF : BitVec 4) ++ x

/-- The row of the opcode map a command stands in; the reserved opcodes have none (R92, R94). -/
def Instr.row? : Instr → Option OpcodeRow
  | .nop => some rowNop
  | .enc _ => some rowEnc
  | .syn _ => some rowSyn
  | .dec _ => some rowDec
  | .col _ => some rowCol
  | .row _ => some rowRow
  | .encw _ _ => some rowEncw
  | .wrtx _ _ => some rowWrtx
  | .rdtx _ => some rowRdtx
  | .rdrx _ => some rowRdrx
  | .inj _ _ => some rowInj
  | .decw _ => some rowDecw
  | .logrd _ => some rowLogrd
  | .chk => some rowChk
  | .reservedE _ => none
  | .reservedF _ => none

/-! ## The table's numbering -/

/-- The word whose bits are w: bit 0 the least significant, every bit at nbits and above 0. -/
def tableWord (nbits w : Nat) : Word := BitVec.ofNat 32 (w % 2 ^ nbits)

/-- The instruction the decoder reads from a table row's word, none where it refuses. -/
def decodeTableWord (nbits w : Nat) : Option Instr :=
  match decode (tableWord nbits w) with
  | .ok i => some i
  | .error _ => none

end Sys2Proof
end

