-- ==== Sys2Proof/Config.lean ====
section
/-!
DEFINITION. What an implementation of ECC16x8 fixes, and the values the spec leaves open (00_scope.md R7). Each is a constant
with no body: nothing can be proved of its value. The meanings take H_DATA and N_WORDS from State, so they hold for
every machine; these constants only say which machine State.reset is (log entry 1).
-/

namespace Sys2Proof.Config

/-- The parameter H_DATA: any 8x8 matrix over GF(2) (R7, R8). -/
opaque hData : HData

/-- N_WORDS less one: any number below 4095 (R7: 1 <= N_WORDS <= 4095). -/
opaque nWordsLessOne : Fin 4095

/-- The parameter N_WORDS (R7). -/
def nWords : Nat := nWordsLessOne.val + 1

/-- Free value: the number behind the t-th choice of the draw that finds the draw counter at c, when nothing was supplied
from outside (R161, U10, U11; log entry 6). -/
opaque rngChoice (c t : Nat) : Nat

/-- Free value: what LOG entry e holds while no INJ has written it (R44, U13; log entry 5). -/
opaque freeLogEntry (e : Nat) : BitVec 16

end Sys2Proof.Config
end

