-- ==== Sys2Proof/Machine/Bits.lean ====
section
/-!
DEFINITION. Positions, parity and one-hot words (00_scope.md R9, R10, R11).
-/

namespace Sys2Proof.Machine

/-- The XOR of the n lowest bits of v. -/
def xorBits {w : Nat} (v : BitVec w) : Nat → Bool
  | 0 => false
  | n + 1 => xorBits v n ^^ v.getLsbD n

/-- parity(v): the XOR of all bits of v (R10). -/
def parity {w : Nat} (v : BitVec w) : Bool := xorBits v w

/-- The number of 1 bits among the n lowest bits of v. -/
def onesBelow {w : Nat} (v : BitVec w) : Nat → Nat
  | 0 => 0
  | n + 1 => onesBelow v n + (v.getLsbD n).toNat

/-- popcount(v) (R10). -/
def popcount {w : Nat} (v : BitVec w) : Nat := onesBelow v w

/-- onehot16(i) = 1 << (15 - i): the only 1 is at position i (R10). -/
def onehot16 (i : Fin 16) : Codeword := 1#16 <<< (15 - i.val)

/-- onehot8(j) = 1 << (7 - j) (R10). -/
def onehot8 (j : Fin 8) : BitVec 8 := 1#8 <<< (7 - j.val)

/-- The n-bit word whose position i is f i: position 0 is the most significant bus bit (R9). -/
def ofPositions : {n : Nat} → (Fin n → Bool) → BitVec n
  | 0, _ => 0#0
  | _ + 1, f => (ofPositions fun i => f i.castSucc).concat (f (Fin.last _))

/-- v⟨i⟩: position i of v, the bus bit W-1-i (R9). -/
def atPosition {w : Nat} (v : BitVec w) (i : Fin w) : Bool := v.getMsbD i.val

/-- c[15:8]: the data word of a codeword, positions 0..7 (R72). -/
def dataOf (c : Codeword) : DataWord := c.extractLsb' 8 8

/-- c[7:0]: the parity bits of a codeword, positions 8..15 (R72). -/
def parityOf (c : Codeword) : BitVec 8 := c.extractLsb' 0 8

/-- zext_32(v) (R10). -/
def zext32 {w : Nat} (v : BitVec w) : Word := v.setWidth 32

end Sys2Proof.Machine
end

