-- ==== Sys2Proof/Machine/Matrix.lean ====
section
/-!
DEFINITION. The parity-check matrix H: its entries, columns, rows and self-check (10_state.md R31 to R34, 40_codec_table.md
R120, R121, R124). Every function takes the data block H_DATA, so it is defined for every matrix (R127).
-/

namespace Sys2Proof.Machine

/-- H[j][i], row j, column i: the data block for i < 8 (R33), the identity for the parity block (R32). -/
def entry (h : HData) (j : Fin 8) (i : Fin 16) : Bool :=
  if hi : i.val < 8 then atPosition h[j] ⟨i.val, hi⟩ else decide (i.val = 8 + j.val)

/-- col(i): the 8-bit column bus, position j is row j (R34, R120). -/
def col (h : HData) (i : Fin 16) : Syndrome := ofPositions fun j => entry h j i

/-- row(j): the 16-bit row bus, position i is column i (R34, R121). -/
def row (h : HData) (j : Fin 8) : BitVec 16 := ofPositions fun i => entry h j i

/-- The 16 positions in ascending order. -/
def positions : List (Fin 16) := List.finRange 16

/-- The 120 pairs (i, j) with i < j, in ascending order of i, then of j (R124, R182). -/
def pairs : List (Fin 16 × Fin 16) :=
  positions.flatMap fun i => (positions.filter fun j => decide (i < j)).map fun j => (i, j)

/-- The record of the self-check (R124). -/
structure SelfCheck where
  /-- some column is zero -/
  zcol : Bool
  /-- some two columns are equal -/
  dup : Bool
  /-- the first zero column, else 0 -/
  zi : Fin 16
  /-- the first pair of equal columns, else (0, 0) -/
  di : Fin 16
  dj : Fin 16
  deriving DecidableEq, Repr

/-- OK: no zero column and no equal columns (R124). -/
def SelfCheck.ok (r : SelfCheck) : Bool := !r.zcol && !r.dup

/-- selfcheck(H) (R124). -/
def selfcheck (h : HData) : SelfCheck :=
  let z := positions.find? fun i => decide (col h i = 0)
  let d := pairs.find? fun p => decide (col h p.1 = col h p.2)
  { zcol := z.isSome
    dup := d.isSome
    zi := z.getD 0
    di := (d.getD (0, 0)).1
    dj := (d.getD (0, 0)).2 }

/-- A position as a 4-bit field. -/
def positionField (i : Fin 16) : BitVec 4 := BitVec.ofNat 4 i.val

/-- The 16-bit record: OK | ZCOL << 1 | DUP << 2 | ZI << 4 | DI << 8 | DJ << 12, bit 3 is 0 (R124). -/
def SelfCheck.toRecord (r : SelfCheck) : BitVec 16 :=
  ((positionField r.dj ++ positionField r.di) ++ positionField r.zi) ++
    ((0#1 ++ BitVec.ofBool r.dup) ++ (BitVec.ofBool r.zcol ++ BitVec.ofBool r.ok))

end Sys2Proof.Machine
end

