-- ==== Sys2Proof/Machine/Memory.lean ====
section
/-!
DEFINITION. The indexed storage behind TX, RX and LOG (20_memory.md R70, R71; log entry 3). The smallest unit is the spec's
own, the 16-bit word (R72). A memory lists the words written since reset, in strictly rising order of the index. An index
that is not listed has no value, so no listed word can equal what an unlisted index reads as, and equal contents are
equal lists.
-/

namespace Sys2Proof.Machine

/-- Index and word, strictly rising. -/
abbrev Memory := List (Nat × Codeword)

/-- The canonical form: indices strictly rising. -/
abbrev Memory.wf (m : Memory) : Prop := m.Pairwise fun a b => a.1 < b.1

/-- Every listed index is below n. -/
abbrev Memory.below (m : Memory) (n : Nat) : Prop := ∀ c ∈ m, c.1 < n

/-- The word at index k, none when it has not been written since reset. -/
def Memory.read? : Memory → Nat → Option Codeword
  | [], _ => none
  | (a, v) :: m, k => if k = a then some v else Memory.read? m k

/-- Write v at index k (R71, MemWrite). -/
def Memory.write : Memory → Nat → Codeword → Memory
  | [], k, v => [(k, v)]
  | (a, x) :: m, k, v =>
    if k < a then (k, v) :: (a, x) :: m
    else if k = a then (k, v) :: m
    else (a, x) :: Memory.write m k v

/-- The written bit of index k (R51). -/
def Memory.written (m : Memory) (k : Nat) : Bool := (Memory.read? m k).isSome

/-- The n words from index base on, none when one of them is unwritten. -/
def Memory.readFrom (m : Memory) (base : Nat) : Nat → Option (List Codeword)
  | 0 => some []
  | n + 1 =>
    match Memory.read? m base, Memory.readFrom m (base + 1) n with
    | some v, some vs => some (v :: vs)
    | _, _ => none

/-- Write these words from index base on, in ascending order. -/
def Memory.writeFrom (m : Memory) (base : Nat) : List Codeword → Memory
  | [] => m
  | v :: vs => Memory.writeFrom (Memory.write m base v) (base + 1) vs

end Sys2Proof.Machine
end

