-- ==== Sys2Proof/Machine/State.lean ====
section
/-!
DEFINITION. The state of ECC16x8 (10_state.md R30, R51, R52), its one fault and its one refusal.
-/

namespace Sys2Proof.Machine

/-- Why a step of the model ends in a fault. -/
inductive Fault where
  /-- ModelFault(UnwrittenRead): a TX or RX word is read that has not been written since reset (R51, R83, R236). Raised by
  RDTX, RDRX, DECW and INJ, after all error checks pass (R232). Safe: the hardware goes on with an unspecified value. -/
  | unwrittenRead
  deriving DecidableEq, Repr

/-- Why the model gives an instruction no meaning. -/
inductive Refusal where
  /-- The arm of exec has no meaning yet. Raised by no arm of this model. Safe: the hardware goes on. -/
  | notModelled (mnemonic : String)
  deriving DecidableEq, Repr

/-- STAT (R36): the fields that are written, each under its own rule. Bits 15:6 are hard-wired to 0 (log entry 10). -/
structure Stat where
  /-- ERR, bit 0 (R37) -/
  err : Bool
  /-- ECODE, bits 3:1 (R38) -/
  ecode : BitVec 3
  /-- SERR, bit 4, sticky (R39) -/
  serr : Bool
  /-- MOK, bit 5 (R40) -/
  mok : Bool
  /-- LOGCNT, bits 31:16 (R41) -/
  logcnt : BitVec 16
  deriving DecidableEq, Repr

/-- What reaches the block from outside, one event a step (log entry 7). -/
inductive HostEvent where
  /-- The host offers a command word and the block executes it to its response (R264). -/
  | command (w : Word)
  /-- The reset input is driven between two commands (R260). -/
  | reset
  /-- The reset input is driven while the block executes this command word (R262). -/
  | resetDuring (w : Word)
  deriving DecidableEq, Repr

/-- The machine (R30), with the parameter N_WORDS (R7) and the inputs to come (log entries 1, 6, 7). -/
structure State where
  /-- H_DATA, the data block of the constant matrix H (R33) -/
  hData : HData
  /-- N_WORDS (R7) -/
  nWords : Nat
  /-- RES (R35) -/
  res : Word
  /-- STAT (R36) -/
  stat : Stat
  /-- TX, the words written since reset (R42, R51) -/
  tx : Memory
  /-- RX, the words written since reset (R43, R51) -/
  rx : Memory
  /-- LOG, the entries written since reset (R45) -/
  log : Memory
  /-- the draws the random source will supply, first the next (R161) -/
  draws : List (List Nat)
  /-- how many draws INJ has taken: the counter of the free draws (R161) -/
  drawCount : Nat
  /-- what the host and the platform will do, oldest first (R260, R264) -/
  port : List HostEvent
  deriving DecidableEq, Repr

/-- TXW[k] (R51). -/
def State.txw (s : State) (k : Nat) : Bool := s.tx.written k

/-- RXW[k] (R51). -/
def State.rxw (s : State) (k : Nat) : Bool := s.rx.written k

/-- STAT after reset: MOK from the self-check, everything else 0 (R52, R261). -/
def Stat.afterReset (h : HData) : Stat :=
  { err := false, ecode := 0, serr := false, mok := (selfcheck h).ok, logcnt := 0 }

/-- The state a reset leads to (R52, R260): H and N_WORDS are constants, RES is 0, TX, RX and LOG hold nothing specified.
The draws and events to come are inputs and stay (log entry 8). -/
def State.afterReset (s : State) : State :=
  { s with res := 0, stat := Stat.afterReset s.hData, tx := [], rx := [], log := [] }

/-- A machine with these parameters after power-up, which counts as a reset (R260), before any input is known. -/
def State.powerUp (h : HData) (n : Nat) : State :=
  { hData := h, nWords := n, res := 0, stat := Stat.afterReset h, tx := [], rx := [], log := []
    draws := [], drawCount := 0, port := [] }

/-- The machine right after reset (R52), for the parameters the implementation fixed (R7). -/
def State.reset : State := State.powerUp Config.hData Config.nWords

end Sys2Proof.Machine
end

