-- ==== Sys2Proof/Machine/Flags.lean ====
section
/-!
DEFINITION. The fields of STAT and how they are written (10_state.md R36 to R41), and the error codes (60_exceptions.md R230).
-/

namespace Sys2Proof.Machine

/-- The error codes (R230). OK is no constructor: it is what a success writes. -/
inductive ErrCode where
  | illegalCmd
  | indexRange
  | invalidInput
  | capacity
  | matrixInvalid
  deriving DecidableEq, Repr

/-- The code written to STAT.ECODE (R230). -/
def ErrCode.code : ErrCode → BitVec 3
  | .illegalCmd => 1
  | .indexRange => 2
  | .invalidInput => 3
  | .capacity => 4
  | .matrixInvalid => 5

/-- A command succeeds: ERR <- 0, ECODE <- OK (R37, R38). SERR stays (R39). -/
def Stat.succeed (t : Stat) : Stat := { t with err := false, ecode := 0 }

/-- A command fails: ERR <- 1, ECODE <- code, SERR <- 1 (R231). -/
def Stat.fail (t : Stat) (e : ErrCode) : Stat := { t with err := true, ecode := e.code, serr := true }

/-- MOK <- b (R40). -/
def Stat.setMok (t : Stat) (b : Bool) : Stat := { t with mok := b }

/-- LOGCNT <- n (R41). -/
def Stat.setLogcnt (t : Stat) (n : Nat) : Stat := { t with logcnt := BitVec.ofNat 16 n }

/-- The whole word, as the host reads it: LOGCNT, the reserved bits 15:6 as 0, MOK, SERR, ECODE, ERR (R36). -/
def Stat.toWord (t : Stat) : Word :=
  (t.logcnt ++ 0#10) ++
    ((BitVec.ofBool t.mok ++ BitVec.ofBool t.serr) ++ (t.ecode ++ BitVec.ofBool t.err))

end Sys2Proof.Machine
end

