-- ==== Sys2Proof/Machine/Operands.lean ====
section
/-!
DEFINITION. The operands of commands and their range checks (30_encoding.md R91, 60_exceptions.md R230, R232). An operand in
range is returned as the value its command uses; one out of range is the error of that check.
-/

namespace Sys2Proof.Machine

/-- K as a column index of H: 0..15, else INDEX_RANGE (R122). -/
def columnOperand (k : Nat) : Except ErrCode (Fin 16) :=
  if h : k < 16 then .ok ⟨k, h⟩ else .error .indexRange

/-- K as a row index of H: 0..7, else INDEX_RANGE (R123). -/
def rowOperand (k : Nat) : Except ErrCode (Fin 8) :=
  if h : k < 8 then .ok ⟨k, h⟩ else .error .indexRange

/-- K as a word index of TX or RX: 0..N_WORDS-1, else INDEX_RANGE (R70). -/
def wordOperand (s : State) (k : Nat) : Except ErrCode Nat :=
  if k < s.nWords then .ok k else .error .indexRange

/-- V as an index of a valid log entry: 0..LOGCNT-1, else INDEX_RANGE (R163). -/
def logOperand (s : State) (e : Nat) : Except ErrCode Nat :=
  if e < s.stat.logcnt.toNat then .ok e else .error .indexRange

/-- V as a code point: 0..255, else INVALID_INPUT (R142). -/
def codePointOperand (v : Nat) : Except ErrCode DataWord :=
  if v ≤ 0xFF then .ok (BitVec.ofNat 8 v) else .error .invalidInput

/-- K and V as a batch length 0..N_WORDS and an error count 0..16*L, else INDEX_RANGE, then CAPACITY (R160). -/
def batchOperands (s : State) (l n : Nat) : Except ErrCode (Nat × Nat) :=
  if l ≤ s.nWords then
    if n ≤ 16 * l then .ok (l, n) else .error .capacity
  else .error .indexRange

/-- The check that H passed its self-check, else MATRIX_INVALID (R185, R186). -/
def matrixValid (s : State) : Except ErrCode Unit :=
  if s.stat.mok then .ok () else .error .matrixInvalid

end Sys2Proof.Machine
end

