-- ==== Sys2Proof/Machine/Ops.lean ====
section
/-!
DEFINITION. The operations the meanings share: the two ways a command ends (30_encoding.md R99, 60_exceptions.md R231), the
buffers (20_memory.md R71), the flip log (10_state.md R45), the random source (42_noise_injector.md R161) and reset (70 R260).

The block takes no exception and returns from none (R233, R234): the error response `State.fail` is all that an error does.
-/

namespace Sys2Proof.Machine

/-! ## How a command ends -/

/-- A success with this result: RES <- r, ERR <- 0, ECODE <- OK (R35, R37, R38). -/
def State.succeed (s : State) (r : Word) : State := { s with res := r, stat := s.stat.succeed }

/-- raise CmdError(e): RES <- 0, ERR <- 1, ECODE <- e, SERR <- 1, nothing else (R231). -/
def State.fail (s : State) (e : ErrCode) : State := { s with res := 0, stat := s.stat.fail e }

/-- The response to a command that writes nothing but RES and STAT. -/
def State.respond (s : State) : Except ErrCode Word → State
  | .ok r => s.succeed r
  | .error e => s.fail e

/-- What the host reads after a command: RES and STAT (R99). -/
def State.response (s : State) : Word × Word := (s.res, s.stat.toWord)

/-! ## TX and RX -/

/-- MemWrite(TX, k, v) (R71). -/
def State.writeTx (s : State) (k : Nat) (v : Codeword) : State := { s with tx := s.tx.write k v }

/-- Answer with a result computed from a word of a buffer, or fault when the word is unwritten: MemRead, then the rest of
the command (R71, R83). -/
def readThen (s : State) (b : Memory) (k : Nat) (f : Codeword → Word) : Host.Outcome State Fault Refusal :=
  match b.read? k with
  | some v => .next (s.succeed (f v))
  | none => .fault .unwrittenRead

/-! ## LOG -/

/-- LOG[e]; an entry no INJ has written since reset holds a free value (R44, log entry 5). -/
def State.logEntry (s : State) (e : Nat) : BitVec 16 := (s.log.read? e).getD (Config.freeLogEntry e)

/-! ## The random source (R161) -/

/-- What R161 says of every draw for n flips in a space of size m: n pairwise distinct numbers, each below m. -/
abbrev ValidDraw (q : List Nat) (n m : Nat) : Prop := q.length = n ∧ q.Nodup ∧ ∀ p ∈ q, p < m

/-- Take n members of the pool, each at the place that the next number of `choice` names, and never the same member twice:
a bounded shuffle-and-take-first-N (R162). The used positions are those that left the pool (R47). -/
def takeFrom (choice : Nat → Nat) : List Nat → Nat → List Nat
  | _, 0 => []
  | [], _ + 1 => []
  | p :: ps, n + 1 =>
    let i := choice n % (ps.length + 1)
    (p :: ps).getD i p :: takeFrom choice ((p :: ps).eraseIdx i) n

/-- A draw that nothing outside fixed: free in everything but R161. -/
def freeDraw (count n m : Nat) : List Nat := takeFrom (Config.rngChoice count) (List.range m) n

/-- draw RNG(n, m): the next draw supplied from outside if it is one R161 admits, else a free one. -/
def State.draw (s : State) (n m : Nat) : List Nat :=
  match s.draws with
  | q :: _ => if ValidDraw q n m then q else freeDraw s.drawCount n m
  | [] => freeDraw s.drawCount n m

/-- The random source moves on, by one draw (R46). -/
def State.advanceRng (s : State) : State :=
  { s with draws := s.draws.tail, drawCount := s.drawCount + 1 }

/-! ## Reset -/

/-- The reset event (R260, R261). -/
def State.resetEvent (s : State) : State := s.afterReset

end Sys2Proof.Machine
end

