-- ==== Sys2Proof/Machine/BufferControl.lean ====
section
/-!
DEFINITION. Buffer access and control: NOP, WRTX, RDTX, RDRX (44_buffer_and_control.md), and the two reserved opcodes
(30_encoding.md R94).
-/

namespace Sys2Proof.Machine

/-- NOP (R210): RES <- 0 and a success. -/
def execNop (s : State) : Host.Outcome State Fault Refusal := .next (s.succeed 0)

/-- WRTX k, c (R211). -/
def execWrtx (k : Nat) (c : Codeword) (s : State) : Host.Outcome State Fault Refusal :=
  .next (match wordOperand s k with
    | .error e => s.fail e
    | .ok k => (s.writeTx k c).succeed (zext32 c))

/-- RDTX k (R212). -/
def execRdtx (k : Nat) (s : State) : Host.Outcome State Fault Refusal :=
  match wordOperand s k with
  | .error e => .next (s.fail e)
  | .ok k => readThen s s.tx k zext32

/-- RDRX k (R213). -/
def execRdrx (k : Nat) (s : State) : Host.Outcome State Fault Refusal :=
  match wordOperand s k with
  | .error e => .next (s.fail e)
  | .ok k => readThen s s.rx k zext32

/-- Opcode 0xE, whatever the other bits hold: ILLEGAL_CMD (R94, R230). -/
def execReservedE (_x : BitVec 28) (s : State) : Host.Outcome State Fault Refusal := .next (s.fail .illegalCmd)

/-- Opcode 0xF, whatever the other bits hold: ILLEGAL_CMD (R94, R230). -/
def execReservedF (_x : BitVec 28) (s : State) : Host.Outcome State Fault Refusal := .next (s.fail .illegalCmd)

end Sys2Proof.Machine
end

