-- ==== Sys2Proof/Machine/CodecTable.lean ====
section
/-!
DEFINITION. The codec table commands COL, ROW, CHK (40_codec_table.md).
-/

namespace Sys2Proof.Machine

/-- COL i (R122). -/
def execCol (k : Nat) (s : State) : Host.Outcome State Fault Refusal :=
  .next (s.respond ((columnOperand k).map fun i => zext32 (col s.hData i)))

/-- ROW j (R123). -/
def execRow (k : Nat) (s : State) : Host.Outcome State Fault Refusal :=
  .next (s.respond ((rowOperand k).map fun j => zext32 (row s.hData j)))

/-- CHK (R125): an invalid matrix is reported, not an error. -/
def execChk (s : State) : Host.Outcome State Fault Refusal :=
  .next (({ s with stat := s.stat.setMok (selfcheck s.hData).ok } : State).succeed
    (zext32 (selfcheck s.hData).toRecord))

end Sys2Proof.Machine
end

