-- ==== Sys2Proof/Machine/Encoder.lean ====
section
/-!
DEFINITION. The encoder and its commands ENC, ENCW (41_encoder.md).
-/

namespace Sys2Proof.Machine

/-- par(d): position j is parity(row(j)[15:8] AND d) (R140). -/
def par (h : HData) (d : DataWord) : BitVec 8 := ofPositions fun j => parity (dataOf (row h j) &&& d)

/-- enc(d) = d ++ par(d) (R141). -/
def enc (h : HData) (d : DataWord) : Codeword := d ++ par h d

/-- ENC v (R142). -/
def execEnc (v : Nat) (s : State) : Host.Outcome State Fault Refusal :=
  .next (s.respond ((codePointOperand v).map fun d => zext32 (enc s.hData d)))

/-- ENCW k, v (R143): INDEX_RANGE comes before INVALID_INPUT (R232). -/
def execEncw (k v : Nat) (s : State) : Host.Outcome State Fault Refusal :=
  .next (match wordOperand s k, codePointOperand v with
    | .error e, _ => s.fail e
    | .ok _, .error e => s.fail e
    | .ok k, .ok d => (s.writeTx k (enc s.hData d)).succeed (zext32 (enc s.hData d)))

end Sys2Proof.Machine
end

