-- ==== Sys2Proof/Machine/NoiseInjector.lean ====
section
/-!
DEFINITION. The noise injector and its commands INJ, LOGRD (42_noise_injector.md).
-/

namespace Sys2Proof.Machine

/-- The mask m of word k: position q[t] mod 16 for every t with q[t] div 16 = k (R160). -/
def flipMask (q : List Nat) (k : Nat) : Codeword :=
  match q with
  | [] => 0
  | p :: ps =>
    if p / 16 = k then flipMask ps k ^^^ onehot16 ⟨p % 16, Nat.mod_lt p (by decide)⟩ else flipMask ps k

/-- The corrupted copies of the words k, k+1, … (R160). -/
def corrupt (q : List Nat) (k : Nat) : List Codeword → List Codeword
  | [] => []
  | c :: cs => (c ^^^ flipMask q k) :: corrupt q (k + 1) cs

/-- A log entry: the flip position 16 * w + b, in 16 bits (R164). -/
def logWord (p : Nat) : BitVec 16 := BitVec.ofNat 16 p

/-- What a successful INJ does once the draw q is made and the batch cs is read: RX, LOG, LOGCNT, RES, the random source
(R160). -/
def inject (q : List Nat) (n : Nat) (cs : List Codeword) (s : State) : State :=
  ({ s.advanceRng with
      rx := s.rx.writeFrom 0 (corrupt q 0 cs)
      log := s.log.writeFrom 0 (q.map logWord)
      stat := s.stat.setLogcnt n } : State).succeed (BitVec.ofNat 32 n)

/-- INJ l, n (R160): the error checks, the draw, all reads, then all writes. -/
def execInj (l n : Nat) (s : State) : Host.Outcome State Fault Refusal :=
  match batchOperands s l n with
  | .error e => .next (s.fail e)
  | .ok (l, n) =>
    match s.tx.readFrom 0 l with
    | some cs => .next (inject (s.draw n (16 * l)) n cs s)
    | none => .fault .unwrittenRead

/-- LOGRD e (R163). -/
def execLogrd (e : Nat) (s : State) : Host.Outcome State Fault Refusal :=
  .next (s.respond ((logOperand s e).map fun e => zext32 (s.logEntry e)))

end Sys2Proof.Machine
end

