-- ==== Sys2Proof/Machine/SyndromeDecoder.lean ====
section
/-!
DEFINITION. The syndrome decoder and its commands SYN, DEC, DECW (43_syndrome_decoder.md).
-/

namespace Sys2Proof.Machine

/-- syn(c): position j is parity(row(j) AND c) (R180). -/
def syn (h : HData) (c : Codeword) : Syndrome := ofPositions fun j => parity (row h j &&& c)

/-- ErrorClassification (R50). -/
inductive ErrorClass where
  | noError
  | singleBitError (i : Fin 16)
  | doubleBitError (i j : Fin 16)
  | unresolvable
  deriving DecidableEq, Repr

/-- The class of a syndrome: zero, then the columns in ascending order, then the pair sums in ascending order, first match
wins (R182 steps 2 to 5). -/
def classify (h : HData) (s : Syndrome) : ErrorClass :=
  if s = 0 then .noError
  else match positions.find? fun i => decide (s = col h i) with
    | some i => .singleBitError i
    | none =>
      match pairs.find? fun p => decide (s = col h p.1 ^^^ col h p.2) with
      | some (i, j) => .doubleBitError i j
      | none => .unresolvable

/-- The codeword with the flips of its class undone (R182). -/
def repair (c : Codeword) : ErrorClass → Codeword
  | .noError => c
  | .singleBitError i => c ^^^ onehot16 i
  | .doubleBitError i j => c ^^^ onehot16 i ^^^ onehot16 j
  | .unresolvable => c

/-- The tuple (CLASS, P0, P1, DATA, S) that decode(c) returns. CLASS carries P0 and P1 where it defines them. -/
structure Decoded where
  cls : ErrorClass
  data : DataWord
  syndrome : Syndrome
  deriving DecidableEq, Repr

/-- decode(c) (R182). -/
def decodeWord (h : HData) (c : Codeword) : Decoded :=
  let s := syn h c
  let k := classify h s
  { cls := k, data := dataOf (repair c k), syndrome := s }

/-- CLASS as a number (R50). -/
def ErrorClass.number : ErrorClass → BitVec 2
  | .noError => 0
  | .singleBitError _ => 1
  | .doubleBitError _ _ => 2
  | .unresolvable => 3

/-- P0: 0 where the class does not define it (R182). -/
def ErrorClass.p0 : ErrorClass → Fin 16
  | .singleBitError i => i
  | .doubleBitError i _ => i
  | .noError => 0
  | .unresolvable => 0

/-- P1: 0 where the class does not define it (R182). -/
def ErrorClass.p1 : ErrorClass → Fin 16
  | .doubleBitError _ j => j
  | .singleBitError _ => 0
  | .noError => 0
  | .unresolvable => 0

/-- The packed result: 0, CLASS [25:24], P1 [23:20], P0 [19:16], SYN [15:8], DATA [7:0] (R183). -/
def Decoded.toWord (r : Decoded) : Word :=
  ((0#6 ++ r.cls.number) ++ (positionField r.cls.p1 ++ positionField r.cls.p0)) ++ (r.syndrome ++ r.data)

/-- decres(c) (R183). -/
def decres (h : HData) (c : Codeword) : Word := (decodeWord h c).toWord

/-- SYN c (R184). -/
def execSyn (c : Codeword) (s : State) : Host.Outcome State Fault Refusal :=
  .next (s.succeed (zext32 (syn s.hData c)))

/-- DEC c (R185). -/
def execDec (c : Codeword) (s : State) : Host.Outcome State Fault Refusal :=
  .next (s.respond ((matrixValid s).map fun _ => decres s.hData c))

/-- DECW k (R186): INDEX_RANGE, then MATRIX_INVALID, then the model fault (R232). -/
def execDecw (k : Nat) (s : State) : Host.Outcome State Fault Refusal :=
  match wordOperand s k, matrixValid s with
  | .error e, _ => .next (s.fail e)
  | .ok _, .error e => .next (s.fail e)
  | .ok k, .ok _ => readThen s s.rx k (decres s.hData)

end Sys2Proof.Machine
end

