-- ==== Sys2Proof/Machine/Dispatch.lean ====
section
/-!
DEFINITION. The meaning of each command (30_encoding.md R92): one arm per constructor of Instr.
-/

namespace Sys2Proof.Machine

def exec (i : Instr) (s : State) : Host.Outcome State Fault Refusal :=
  match i with
  | .nop => Sys2Proof.Machine.execNop s
  | .enc v => Sys2Proof.Machine.execEnc v s
  | .syn c => Sys2Proof.Machine.execSyn c s
  | .dec c => Sys2Proof.Machine.execDec c s
  | .col k => Sys2Proof.Machine.execCol k s
  | .row k => Sys2Proof.Machine.execRow k s
  | .encw k v => Sys2Proof.Machine.execEncw k v s
  | .wrtx k c => Sys2Proof.Machine.execWrtx k c s
  | .rdtx k => Sys2Proof.Machine.execRdtx k s
  | .rdrx k => Sys2Proof.Machine.execRdrx k s
  | .inj l n => Sys2Proof.Machine.execInj l n s
  | .decw k => Sys2Proof.Machine.execDecw k s
  | .logrd e => Sys2Proof.Machine.execLogrd e s
  | .chk => Sys2Proof.Machine.execChk s
  | .reservedE x => Sys2Proof.Machine.execReservedE x s
  | .reservedF x => Sys2Proof.Machine.execReservedF x s

end Sys2Proof.Machine
end

