-- ==== Sys2Proof/Machine/Port.lean ====
section
/-!
DEFINITION. The command port and the reset input (70_reset_and_hazards.md R260, R262, R264; log entry 7).
-/

namespace Sys2Proof.Machine

/-- Execute a command word: the meaning of the command it decodes to, or the error response of an illegal word (R93, R96). -/
def runWord (w : Word) (s : State) : Host.Outcome State Fault Refusal :=
  match decode w with
  | .ok i => exec i s
  | .error .mustBeZero => .next (s.fail .illegalCmd)

/-- One event at the port. A reset during a command aborts it: no response, and the reset state (R262). -/
def runEvent (e : HostEvent) (s : State) : Host.Outcome State Fault Refusal :=
  match e with
  | .command w => runWord w s
  | .reset => .next s.resetEvent
  | .resetDuring _ => .next s.resetEvent

/-- The block takes the oldest event and acts on it. With none it is idle and keeps its state (R244). -/
def serve (s : State) : Host.Outcome State Fault Refusal :=
  match s.port with
  | [] => .next s
  | e :: rest => runEvent e { s with port := rest }

/-- The host offers this command word before everything it has already planned. -/
def State.offer (s : State) (w : Word) : State := { s with port := .command w :: s.port }

end Sys2Proof.Machine
end

