-- ==== Sys2Proof/Machine/Step.lean ====
section
/-!
DEFINITION. One step of the block: one event at its port, a command from acceptance to response (70_reset_and_hazards.md R264).
-/

namespace Sys2Proof.Machine

def step (s : State) : Host.Outcome State Fault Refusal := serve s

/-- The state in which the next step runs the instruction whose bits are w: the command word stands first at the port. -/
def State.withFetchWord (s : State) (nbits w : Nat) : State := s.offer (tableWord nbits w)

end Sys2Proof.Machine
end

