-- ==== Sys2Proof/Safety.lean ====
section
/-!
DEFINITION. The terms the claims use: the two answers of a command, what each error means (60_exceptions.md R230), when a
command reads no unwritten word (70_reset_and_hazards.md R263), the conditions on the matrix (43_syndrome_decoder.md
R190, R191), and the invariant of the machine.
-/

namespace Sys2Proof

open Sys2Proof.Machine

/-- The state after a success with this result that writes nothing else: RES, ERR and ECODE change (R35, R37, R38). -/
def okState (s : State) (r : Word) : State := { s with res := r, stat := { s.stat with err := false, ecode := 0 } }

/-- The state after a failure with this code: RES, ERR, ECODE and SERR change, nothing else (R231). -/
def errState (s : State) (code : BitVec 3) : State :=
  { s with res := 0, stat := { s.stat with err := true, ecode := code, serr := true } }

/-- INDEX_RANGE applies (R230, code 2). -/
def IndexOut (s : State) : Instr → Prop
  | .col k => 16 ≤ k
  | .row k => 8 ≤ k
  | .encw k _ => s.nWords ≤ k
  | .wrtx k _ => s.nWords ≤ k
  | .rdtx k => s.nWords ≤ k
  | .rdrx k => s.nWords ≤ k
  | .decw k => s.nWords ≤ k
  | .inj l _ => s.nWords < l
  | .logrd e => s.stat.logcnt.toNat ≤ e
  | .nop => False
  | .enc _ => False
  | .syn _ => False
  | .dec _ => False
  | .chk => False
  | .reservedE _ => False
  | .reservedF _ => False

/-- INVALID_INPUT applies (R230, code 3). -/
def InputOut : Instr → Prop
  | .enc v => 0xFF < v
  | .encw _ v => 0xFF < v
  | .nop => False
  | .syn _ => False
  | .dec _ => False
  | .col _ => False
  | .row _ => False
  | .wrtx _ _ => False
  | .rdtx _ => False
  | .rdrx _ => False
  | .inj _ _ => False
  | .decw _ => False
  | .logrd _ => False
  | .chk => False
  | .reservedE _ => False
  | .reservedF _ => False

/-- The word is of a reserved opcode (R94). -/
def Reserved : Instr → Prop
  | .reservedE _ => True
  | .reservedF _ => True
  | .nop => False
  | .enc _ => False
  | .syn _ => False
  | .dec _ => False
  | .col _ => False
  | .row _ => False
  | .encw _ _ => False
  | .wrtx _ _ => False
  | .rdtx _ => False
  | .rdrx _ => False
  | .inj _ _ => False
  | .decw _ => False
  | .logrd _ => False
  | .chk => False

/-- The cause of the error applies to the command in this state (R230). -/
def Causes (i : Instr) (s : State) : ErrCode → Prop
  | .illegalCmd => Reserved i
  | .indexRange => IndexOut s i
  | .invalidInput => InputOut i
  | .capacity => ∃ l n, i = .inj l n ∧ 16 * l < n
  | .matrixInvalid => ((∃ c, i = .dec c) ∨ ∃ k, i = .decw k) ∧ s.stat.mok = false

/-- Every TX or RX word the command reads has been written since reset (R51, R83, R263). -/
def ReadsWritten (s : State) : Instr → Prop
  | .rdtx k => s.txw k = true
  | .rdrx k => s.rxw k = true
  | .decw k => s.rxw k = true
  | .inj l _ => ∀ k, k < l → s.txw k = true
  | .nop => True
  | .enc _ => True
  | .syn _ => True
  | .dec _ => True
  | .col _ => True
  | .row _ => True
  | .encw _ _ => True
  | .wrtx _ _ => True
  | .logrd _ => True
  | .chk => True
  | .reservedE _ => True
  | .reservedF _ => True

/-- The commands of R75 that only read. -/
def ReadOnly : Instr → Prop
  | .rdtx _ => True
  | .rdrx _ => True
  | .logrd _ => True
  | .col _ => True
  | .row _ => True
  | .syn _ => True
  | .dec _ => True
  | .decw _ => True
  | .nop => False
  | .enc _ => False
  | .encw _ _ => False
  | .wrtx _ _ => False
  | .inj _ _ => False
  | .chk => False
  | .reservedE _ => False
  | .reservedF _ => False

/-- The condition of R190: the 16 columns are non-zero and pairwise distinct. -/
def ColumnsDistinct (h : HData) : Prop := (∀ i, col h i ≠ 0) ∧ ∀ i j, col h i = col h j → i = j

/-- The further condition of R191: the pair sums are pairwise distinct and none equals a column. -/
def PairSumsDistinct (h : HData) : Prop :=
  (∀ i j m, i < j → col h i ^^^ col h j ≠ col h m) ∧
    ∀ i j i' j', i < j → i' < j' → col h i ^^^ col h j = col h i' ^^^ col h j' → i = i' ∧ j = j'

/-- What is true of the machine after reset and after every step. -/
structure Inv (s : State) : Prop where
  /-- 1 <= N_WORDS <= 4095 (R7) -/
  nWords_range : 1 ≤ s.nWords ∧ s.nWords ≤ 4095
  /-- TX, RX and LOG are in canonical form -/
  tx_canonical : Memory.wf s.tx
  rx_canonical : Memory.wf s.rx
  log_canonical : Memory.wf s.log
  /-- TX and RX have N_WORDS words (R42, R43), LOG has 16 * N_WORDS entries (R45) -/
  tx_size : Memory.below s.tx s.nWords
  rx_size : Memory.below s.rx s.nWords
  log_size : Memory.below s.log (16 * s.nWords)
  /-- an RX word is a corrupted copy of a TX word, so its TX word was written too (R160) -/
  rx_from_tx : ∀ k, s.rxw k = true → s.txw k = true
  /-- LOGCNT is at most 16 * N_WORDS (R41) -/
  logcnt_range : s.stat.logcnt.toNat ≤ 16 * s.nWords
  /-- every valid log entry was written, names a bit of the buffer, and names it once (R164, R165) -/
  log_entries : ∀ e, e < s.stat.logcnt.toNat → ∃ v, s.log.read? e = some v ∧ v.toNat < 16 * s.nWords
  log_distinct : ∀ e e' v, e < s.stat.logcnt.toNat → e' < s.stat.logcnt.toNat →
    s.log.read? e = some v → s.log.read? e' = some v → e = e'
  /-- ECODE is a code of R230, 0 exactly when ERR is 0 (R37, R38) -/
  ecode_legal : s.stat.ecode.toNat ≤ 5
  err_ecode : s.stat.err = true ↔ s.stat.ecode ≠ 0
  /-- a failed command has set SERR (R39) -/
  err_serr : s.stat.err = true → s.stat.serr = true
  /-- MOK is the result of the self-check of H (R40) -/
  mok_selfcheck : s.stat.mok = (selfcheck s.hData).ok

/-- A safe step: no fault and no refusal (R236: a claim about a program takes "no model fault" as a premise). -/
def SafeStep (s : State) : Prop := ∃ t, step s = .next t

end Sys2Proof
end

