-- ==== Sys2Proof/Certificates/Slice0/Obligations.lean ====
section
/-!
DEFINITION. The statements for the provers. R<n> are the numbered rules of spec/.
-/

open Sys2Proof Sys2Proof.Machine

/-! ## Encoding (30_encoding.md) -/

/-- R90 to R93: no bit of an operand is lost. Every command whose operands fit their fields is what its word decodes to. -/
def Obligations.DecodeUndoesEncode : Prop :=
  ∀ i : Instr, i.wellFormed = true → decode (encode i) = .ok i

/-- R92, R96: a word stands for one command only. What a word decodes to is well formed and encodes to that word. -/
def Obligations.EncodeUndoesDecode : Prop :=
  ∀ (w : Word) (i : Instr), decode w = .ok i → i.wellFormed = true ∧ encode i = w

/-- R96: decoding is total. With the word first at the port: a word of opcode 0xE or 0xF is illegal; any other word has
exactly one row, is that row's command when (w AND mask) = match and illegal when not; no word is in two rows. -/
def Obligations.EveryWordIsOneCommandOrIllegal : Prop :=
  ∀ (s : State) (w : Word) (rest : List HostEvent), s.port = .command w :: rest →
    ((opField w = 0xE ∨ opField w = 0xF) → step s = .next (errState { s with port := rest } 1)) ∧
    (opField w ≠ 0xE → opField w ≠ 0xF → ∃! r, r ∈ opcodeRows ∧ r.op = opField w) ∧
    (∀ r ∈ opcodeRows, r.op = opField w →
      (w &&& r.mask = r.pattern →
        ∃ i, decode w = .ok i ∧ i.row? = some r ∧ step s = exec i { s with port := rest }) ∧
      (w &&& r.mask ≠ r.pattern → step s = .next (errState { s with port := rest } 1))) ∧
    (∀ r ∈ opcodeRows, ∀ r' ∈ opcodeRows, w &&& r.mask = r.pattern → w &&& r'.mask = r'.pattern → r = r')

/-- R91: a word its row selects decodes to the command of that row, with K = w[27:16] and V = w[15:0] as its operands. -/
def Obligations.OperandsAreTheFieldsOfTheWord : Prop :=
  ∀ w : Word,
    (rowNop.selects w = true → decode w = .ok .nop) ∧
    (rowEnc.selects w = true → decode w = .ok (.enc (w.extractLsb' 0 16).toNat)) ∧
    (rowSyn.selects w = true → decode w = .ok (.syn (w.extractLsb' 0 16))) ∧
    (rowDec.selects w = true → decode w = .ok (.dec (w.extractLsb' 0 16))) ∧
    (rowCol.selects w = true → decode w = .ok (.col (w.extractLsb' 16 12).toNat)) ∧
    (rowRow.selects w = true → decode w = .ok (.row (w.extractLsb' 16 12).toNat)) ∧
    (rowEncw.selects w = true → decode w = .ok (.encw (w.extractLsb' 16 12).toNat (w.extractLsb' 0 16).toNat)) ∧
    (rowWrtx.selects w = true → decode w = .ok (.wrtx (w.extractLsb' 16 12).toNat (w.extractLsb' 0 16))) ∧
    (rowRdtx.selects w = true → decode w = .ok (.rdtx (w.extractLsb' 16 12).toNat)) ∧
    (rowRdrx.selects w = true → decode w = .ok (.rdrx (w.extractLsb' 16 12).toNat)) ∧
    (rowInj.selects w = true → decode w = .ok (.inj (w.extractLsb' 16 12).toNat (w.extractLsb' 0 16).toNat)) ∧
    (rowDecw.selects w = true → decode w = .ok (.decw (w.extractLsb' 16 12).toNat)) ∧
    (rowLogrd.selects w = true → decode w = .ok (.logrd (w.extractLsb' 0 16).toNat)) ∧
    (rowChk.selects w = true → decode w = .ok .chk)

/-- 30_encoding.md section 6, and one word more for each other family: words written out from the format. -/
def Obligations.WrittenOutWordsDecode : Prop :=
  decode 0x10000041 = .ok (.enc 65) ∧ decode 0x60000041 = .ok (.encw 0 65) ∧ decode 0xA0010001 = .ok (.inj 1 1) ∧
    decode 0xB0000000 = .ok (.decw 0) ∧ decode 0x400F0000 = .ok (.col 15) ∧ decode 0xC0000000 = .ok (.logrd 0) ∧
    decode 0xD0000000 = .ok .chk ∧ decode 0x00000000 = .ok .nop ∧ decode 0x200051D2 = .ok (.syn 0x51D2) ∧
    decode 0x700241D2 = .ok (.wrtx 2 0x41D2) ∧ decode 0x00000001 = .error .mustBeZero

/-- R93: a must-be-zero field that is not zero makes the word illegal; a legal field whose value is out of range is another
error. -/
def Obligations.MustBeZeroFieldsMakeWordsIllegal : Prop :=
  (∀ (s : State) (w : Word) (rest : List HostEvent), s.port = .command w :: rest →
    (opField w ∈ [0x0#4, 0x1#4, 0x2#4, 0x3#4, 0xC#4, 0xD#4] → kField w ≠ 0 →
      step s = .next (errState { s with port := rest } 1)) ∧
    (opField w ∈ [0x0#4, 0x4#4, 0x5#4, 0x8#4, 0x9#4, 0xB#4, 0xD#4] → vField w ≠ 0 →
      step s = .next (errState { s with port := rest } 1))) ∧
  ∀ s : State, exec (.enc 0x0100) s = .next (errState s 3) ∧ exec (.col 16) s = .next (errState s 2)

/-- R94: every word of opcode 0xE or 0xF is illegal whatever K and V hold, and every word is either selected by a row of R92
or illegal, never both. -/
def Obligations.ReservedOpcodesAreIllegal : Prop :=
  (∀ (s : State) (w : Word) (rest : List HostEvent), s.port = .command w :: rest →
    ((opField w = 0xE ∨ opField w = 0xF) → step s = .next (errState { s with port := rest } 1)) ∧
    ((¬ ∃ r ∈ opcodeRows, r.selects w = true) → step s = .next (errState { s with port := rest } 1))) ∧
  (∀ w : Word, (∃ r ∈ opcodeRows, r.selects w = true) ↔ ∃ i, decode w = .ok i ∧ ¬ Reserved i) ∧
  ∀ w : Word, (opField w = 0xE ∨ opField w = 0xF) → ¬ ∃ r ∈ opcodeRows, r.selects w = true

/-- R94, R230: the reserved opcodes answer ILLEGAL_CMD, in every state and for every other bit. -/
def Obligations.ReservedCommandsAnswerIllegalCmd : Prop :=
  ∀ (s : State) (x : BitVec 28),
    exec (.reservedE x) s = .next (errState s 1) ∧ exec (.reservedF x) s = .next (errState s 1)

/-! ## The port and reset (70_reset_and_hazards.md) -/

/-- R264: when the word first at the port decodes to a command, the step is that command, with the rest of the port kept.
(The port as a list of events is the model's choice, log entry 7.) -/
def Obligations.StepRunsTheDecodedCommand : Prop :=
  ∀ (s : State) (w : Word) (rest : List HostEvent) (i : Instr),
    s.port = .command w :: rest → decode w = .ok i → step s = exec i { s with port := rest }

/-- R244: with nothing at the port the block is idle and its state is kept. (The idle step is the model's form, log entry 7.) -/
def Obligations.IdleBlockKeepsItsState : Prop :=
  ∀ s : State, s.port = [] → step s = .next s

/-- R52, R261: what a reset leaves: H unchanged, RES 0, STAT 0x20 or 0 by the self-check of H with ERR, ECODE, SERR and LOGCNT
0, every TX and RX word unwritten, no readable log entry. (That N_WORDS and the inputs to come stay is the model's
choice, log entry 8.) -/
def Obligations.ResetLeavesTheResetState : Prop :=
  ∀ (s : State) (rest : List HostEvent), s.port = .reset :: rest →
    ∃ t, step s = .next t ∧ t.hData = s.hData ∧ t.nWords = s.nWords ∧ t.res = 0 ∧
      t.stat.err = false ∧ t.stat.ecode = 0 ∧ t.stat.serr = false ∧ t.stat.mok = (selfcheck s.hData).ok ∧
      t.stat.logcnt = 0 ∧ t.stat.toWord = (if (selfcheck s.hData).ok then 0x20 else 0) ∧
      (∀ k, t.txw k = false ∧ t.rxw k = false) ∧
      t.draws = s.draws ∧ t.drawCount = s.drawCount ∧ t.port = rest

/-- R262: a reset while a command executes leaves the state the reset alone leaves. (That it takes no draw is log entry 12.) -/
def Obligations.ResetDuringACommandAbortsIt : Prop :=
  ∀ (s : State) (w : Word) (rest : List HostEvent), s.port = .resetDuring w :: rest →
    step s = step { s with port := .reset :: rest }

/-- R52, R260: the machine after power-up, for any H_DATA and N_WORDS, and State.reset is one. (The empty port and the draws
of State.reset are the model's choice, log entries 6 and 7.) -/
def Obligations.PowerUpIsAReset : Prop :=
  (∀ (h : HData) (n : Nat), (State.powerUp h n).hData = h ∧ (State.powerUp h n).nWords = n ∧
    (State.powerUp h n).res = 0 ∧
    (State.powerUp h n).response = (0, if (selfcheck h).ok then 0x20 else 0) ∧
    ∀ k, (State.powerUp h n).txw k = false ∧ (State.powerUp h n).rxw k = false) ∧
  ∃ h n, 1 ≤ n ∧ n ≤ 4095 ∧ State.reset = State.powerUp h n

/-! ## RES and STAT (10_state.md) and errors (60_exceptions.md) -/

/-- R36: the fields of the STAT word; bits 15:6 read 0. -/
def Obligations.StatWordHasItsFields : Prop :=
  ∀ t : Stat, t.toWord.getLsbD 0 = t.err ∧ t.toWord.extractLsb' 1 3 = t.ecode ∧ t.toWord.getLsbD 4 = t.serr ∧
    t.toWord.getLsbD 5 = t.mok ∧ (∀ b, 6 ≤ b → b ≤ 15 → t.toWord.getLsbD b = false) ∧
    t.toWord.extractLsb' 16 16 = t.logcnt

/-- R37, R38: after a command, legal or not, ERR and ECODE tell its outcome: 0 and OK, or 1 and a code of R230. -/
def Obligations.EveryCommandWritesErrAndEcode : Prop :=
  ∀ (s t : State) (w : Word) (rest : List HostEvent), s.port = .command w :: rest → step s = .next t →
    (t.stat.err = false ∧ t.stat.ecode = 0) ∨
      (t.stat.err = true ∧ (t.stat.ecode = 1 ∨ t.stat.ecode = 2 ∨ t.stat.ecode = 3 ∨ t.stat.ecode = 4 ∨ t.stat.ecode = 5))

/-- R230, R232, R51, R166: for every command in every state: it fails with a code exactly when the cause of that code
applies and no cause of an earlier code does; it succeeds exactly when no cause applies and every word it reads was
written; it faults exactly when no cause applies and some word it reads was not. It is never refused. -/
def Obligations.OutcomesFollowTheErrorTableInOrder : Prop :=
  ∀ (i : Instr) (s : State),
    (∀ e : ErrCode, (∃ t, exec i s = .next t ∧ t.stat.err = true ∧ t.stat.ecode = e.code) ↔
      (Causes i s e ∧ ∀ e' : ErrCode, e'.code < e.code → ¬ Causes i s e')) ∧
    ((∃ t, exec i s = .next t ∧ t.stat.err = false) ↔ ((∀ e, ¬ Causes i s e) ∧ ReadsWritten s i)) ∧
    (exec i s = .fault .unwrittenRead ↔ ((∀ e, ¬ Causes i s e) ∧ ¬ ReadsWritten s i)) ∧
    ∀ r, exec i s ≠ .refused r

/-- R231: a failed command, or an illegal word, writes RES 0, ERR 1, its code, SERR 1, and nothing else. -/
def Obligations.AFailureChangesOnlyTheResponse : Prop :=
  ∀ (s t : State) (w : Word) (rest : List HostEvent), s.port = .command w :: rest → step s = .next t →
    t.stat.err = true → ∃ e : ErrCode, t = errState { s with port := rest } e.code

/-- R39: SERR is set by every failed command and cleared only by reset; it is 0 after reset. -/
def Obligations.OnlyResetClearsSerr : Prop :=
  (∀ s t : State, step s = .next t →
    (s.stat.serr = true → t.stat.serr = false →
      ∃ rest, s.port = .reset :: rest ∨ ∃ w, s.port = .resetDuring w :: rest) ∧
    (∀ w rest, s.port = .command w :: rest → t.stat.err = true → t.stat.serr = true)) ∧
  (∀ s rest, s.port = .reset :: rest → ∃ t, step s = .next t ∧ t.stat.serr = false) ∧
  State.reset.stat.serr = false

/-- R40: CHK sets MOK from the self-check and no other command changes it. -/
def Obligations.OnlyChkWritesMok : Prop :=
  ∀ (i : Instr) (s t : State), exec i s = .next t →
    (i = .chk → t.stat.mok = (selfcheck s.hData).ok) ∧ (i ≠ .chk → t.stat.mok = s.stat.mok)

/-- R41: LOGCNT becomes the error count of a successful INJ, at most 16 * N_WORDS <= 65520; no other command and no failed
INJ changes it; it is 0 after reset. -/
def Obligations.OnlyASuccessfulInjSetsLogcnt : Prop :=
  (∀ (i : Instr) (s t : State), s.nWords ≤ 4095 → exec i s = .next t →
    (t.stat.logcnt ≠ s.stat.logcnt → ∃ l n, i = .inj l n) ∧
    (t.stat.err = true → t.stat.logcnt = s.stat.logcnt) ∧
    (∀ l n, i = .inj l n → t.stat.err = false →
      t.stat.logcnt.toNat = n ∧ n ≤ 16 * s.nWords ∧ 16 * s.nWords ≤ 65520)) ∧
  State.reset.stat.logcnt = 0

/-! ## Whole-machine frames -/

/-- R42: only ENCW and WRTX write TX, and only word K. INJ does not. -/
def Obligations.OnlyEncwAndWrtxWriteTx : Prop :=
  ∀ (i : Instr) (s t : State), exec i s = .next t →
    ((∀ k v, i ≠ .encw k v) → (∀ k c, i ≠ .wrtx k c) → t.tx = s.tx) ∧
    (∀ k v, i = .encw k v → ∀ k', k' ≠ k → t.tx.read? k' = s.tx.read? k') ∧
    (∀ k c, i = .wrtx k c → ∀ k', k' ≠ k → t.tx.read? k' = s.tx.read? k')

/-- R43, R45, R46: only INJ writes RX and LOG and moves the random source. -/
def Obligations.OnlyInjWritesRxLogAndRng : Prop :=
  ∀ (i : Instr) (s t : State), exec i s = .next t → (∀ l n, i ≠ .inj l n) →
    t.rx = s.rx ∧ t.log = s.log ∧ t.draws = s.draws ∧ t.drawCount = s.drawCount

/-- R33, R7: no step changes H or N_WORDS, and no command changes what comes next at the port (R49; the
port is log entry 7). That a reset keeps N_WORDS and the rest of the port is the model's choice, log entry 8. -/
def Obligations.NothingChangesHOrNWords : Prop :=
  (∀ s t : State, step s = .next t → t.hData = s.hData ∧ t.nWords = s.nWords ∧ t.port = s.port.tail) ∧
  ∀ (i : Instr) (s t : State), exec i s = .next t → t.port = s.port

/-- R75: a command that only reads changes RES, ERR, ECODE and SERR alone, and repeating it gives the same again. -/
def Obligations.ReadingCommandsRepeat : Prop :=
  ∀ (i : Instr) (s t : State), ReadOnly i → exec i s = .next t →
    t = { s with res := t.res, stat := { s.stat with err := t.stat.err, ecode := t.stat.ecode, serr := t.stat.serr } } ∧
      exec i t = .next t

/-- R75: ENCW and WRTX are idempotent for the same operands. -/
def Obligations.TransmitWritesAreIdempotent : Prop :=
  ∀ (s t : State) (k : Nat),
    (∀ v, exec (.encw k v) s = .next t → exec (.encw k v) t = .next t) ∧
    (∀ c, exec (.wrtx k c) s = .next t → exec (.wrtx k c) t = .next t)

/-! ## Codec table (40_codec_table.md, 10_state.md) -/

/-- R32, R34, R120, R121: the parity block of H is the identity, and the buses hold the entries of H: col(i)[7-j] = H[j][i] =
row(j)[15-i], col(8+m) = onehot8(m), row(j)[7:0] = onehot8(j). -/
def Obligations.ColumnsAndRowsHoldTheEntriesOfH : Prop :=
  ∀ h : HData,
    (∀ (j m : Fin 8) (i : Fin 16), i.val = 8 + m.val → entry h j i = decide (m = j)) ∧
    (∀ (j : Fin 8) (i : Fin 16),
      (col h i).getLsbD (7 - j.val) = entry h j i ∧ (row h j).getLsbD (15 - i.val) = entry h j i) ∧
    (∀ (m : Fin 8) (i : Fin 16), i.val = 8 + m.val → col h i = onehot8 m) ∧
    (∀ j : Fin 8, parityOf (row h j) = onehot8 j ∧ dataOf (row h j) = h[j]) ∧
    col h 8 = 0x80 ∧ col h 15 = 0x01

/-- R122: COL answers the column, zero-extended, for 0..15 and INDEX_RANGE above; for K >= 8 the result does not depend on
H_DATA. -/
def Obligations.ColAnswersTheColumn : Prop :=
  ∀ s : State,
    (∀ i : Fin 16, exec (.col i.val) s = .next (okState s ((col s.hData i).setWidth 32))) ∧
    (∀ k, 16 ≤ k → exec (.col k) s = .next (errState s 2)) ∧
    (∀ m : Fin 8, exec (.col (8 + m.val)) s = .next (okState s ((onehot8 m).setWidth 32)))

/-- R123: ROW answers the row, zero-extended, for 0..7 and INDEX_RANGE above. -/
def Obligations.RowAnswersTheRow : Prop :=
  ∀ s : State,
    (∀ j : Fin 8, exec (.row j.val) s = .next (okState s ((row s.hData j).setWidth 32))) ∧
    (∀ k, 8 ≤ k → exec (.row k) s = .next (errState s 2))

/-- R125: CHK answers the record of the self-check and sets MOK, also when the matrix is invalid. -/
def Obligations.ChkAnswersTheSelfCheck : Prop :=
  ∀ s : State, exec .chk s = .next
    (okState { s with stat := { s.stat with mok := (selfcheck s.hData).ok } }
      ((selfcheck s.hData).toRecord.setWidth 32))

/-- R124: the record: OK, ZCOL, DUP, bit 3 zero, the first zero column, the first pair of equal columns in ascending order of i,
then of j; only a data column can be zero or the lower of two equal columns. -/
def Obligations.SelfCheckRecordSaysWhatIsWrong : Prop :=
  ∀ h : HData,
    ((selfcheck h).toRecord.getLsbD 0 = true ↔
      (¬ ∃ i, col h i = 0) ∧ ¬ ∃ i j, i < j ∧ col h i = col h j) ∧
    ((selfcheck h).ok = (selfcheck h).toRecord.getLsbD 0) ∧
    ((selfcheck h).toRecord.getLsbD 1 = true ↔ ∃ i, col h i = 0) ∧
    ((selfcheck h).toRecord.getLsbD 2 = true ↔ ∃ i j, i < j ∧ col h i = col h j) ∧
    (selfcheck h).toRecord.getLsbD 3 = false ∧
    (∀ i, col h i = 0 → (∀ i', i' < i → col h i' ≠ 0) → ((selfcheck h).toRecord.extractLsb' 4 4).toNat = i.val) ∧
    ((∀ i, col h i ≠ 0) → (selfcheck h).toRecord.extractLsb' 4 4 = 0) ∧
    (∀ i j, i < j → col h i = col h j →
      (∀ i' j', i' < j' → (i' < i ∨ i' = i ∧ j' < j) → col h i' ≠ col h j') →
      ((selfcheck h).toRecord.extractLsb' 8 4).toNat = i.val ∧
        ((selfcheck h).toRecord.extractLsb' 12 4).toNat = j.val) ∧
    ((∀ i j, i < j → col h i ≠ col h j) →
      (selfcheck h).toRecord.extractLsb' 8 4 = 0 ∧ (selfcheck h).toRecord.extractLsb' 12 4 = 0) ∧
    (∀ i, col h i = 0 → i.val < 8) ∧ (∀ i j, i < j → col h i = col h j → i.val < 8)

/-! ## Encoder (41_encoder.md) -/

/-- R140, R141: enc(d) is d then par(d); p_j is the XOR over i of H[j][i] AND d⟨i⟩; par(d) is the XOR of the columns where d
has a 1. -/
def Obligations.EncodedWordIsDataThenParity : Prop :=
  ∀ (h : HData) (d : DataWord),
    dataOf (enc h d) = d ∧ parityOf (enc h d) = par h d ∧
    (∀ j : Fin 8, atPosition (par h d) j = parity (dataOf (row h j) &&& d)) ∧
    (∀ j : Fin 8, atPosition (par h d) j =
      (List.finRange 8).foldl (fun x i => x ^^ (entry h j ⟨i.val, by omega⟩ && atPosition d i)) false) ∧
    par h d = (List.finRange 8).foldl (fun x i => if atPosition d i then x ^^^ col h ⟨i.val, by omega⟩ else x) 0 ∧
    par h 0 = 0

/-- R144: every encoded word has zero syndrome, for every H_DATA. -/
def Obligations.EncodedWordsHaveZeroSyndrome : Prop :=
  ∀ (h : HData) (d : DataWord), syn h (enc h d) = 0

/-- R145: enc is linear and injective; the least distance of two codewords is the least weight of a non-zero one, which
depends on H_DATA. -/
def Obligations.EncodingIsLinearAndInjective : Prop :=
  (∀ (h : HData) (a b : DataWord), enc h (a ^^^ b) = enc h a ^^^ enc h b ∧ (enc h a = enc h b → a = b)) ∧
  (∀ h : HData, enc h 0 = 0) ∧
  (∀ (h : HData) (m : Nat), (∀ a b, a ≠ b → m ≤ popcount (enc h a ^^^ enc h b)) ↔
    ∀ d, d ≠ 0 → m ≤ popcount (enc h d)) ∧
  ∃ (h h' : HData) (m : Nat), (∀ d, d ≠ 0 → m ≤ popcount (enc h d)) ∧ ¬ ∀ d, d ≠ 0 → m ≤ popcount (enc h' d)

/-- R142: ENC answers the codeword of every code point 0..255, and INVALID_INPUT above. -/
def Obligations.EncAnswersTheCodeword : Prop :=
  ∀ (s : State) (v : Nat),
    (v ≤ 255 → exec (.enc v) s = .next (okState s ((enc s.hData (BitVec.ofNat 8 v)).setWidth 32))) ∧
    (255 < v → exec (.enc v) s = .next (errState s 3))

/-- R143: ENCW writes the codeword to TX[K] and answers it; every other TX word and all other state stay; INDEX_RANGE comes
before INVALID_INPUT. -/
def Obligations.EncwWritesTheCodewordToTx : Prop :=
  ∀ (s : State) (k v : Nat),
    (k < s.nWords → v ≤ 255 → ∃ m : Memory,
      exec (.encw k v) s = .next (okState { s with tx := m } ((enc s.hData (BitVec.ofNat 8 v)).setWidth 32)) ∧
        m.read? k = some (enc s.hData (BitVec.ofNat 8 v)) ∧ (∀ k', k' ≠ k → m.read? k' = s.tx.read? k') ∧
        (s.tx.wf → m.wf)) ∧
    (s.nWords ≤ k → exec (.encw k v) s = .next (errState s 2)) ∧
    (k < s.nWords → 255 < v → exec (.encw k v) s = .next (errState s 3))

/-! ## Syndrome decoder (43_syndrome_decoder.md) -/

/-- R180, R184: SYN answers the syndrome, whose position j is the XOR over i of H[j][i] AND c⟨i⟩, also when MOK is 0. -/
def Obligations.SynAnswersTheSyndrome : Prop :=
  (∀ (s : State) (c : Codeword), exec (.syn c) s = .next (okState s ((syn s.hData c).setWidth 32))) ∧
  ∀ (h : HData) (c : Codeword) (j : Fin 8), atPosition (syn h c) j =
    (List.finRange 16).foldl (fun x i => x ^^ (entry h j i && atPosition c i)) false

/-- R181: equal forms of the syndrome, when it is zero, its linearity, the syndrome of a single flip. -/
def Obligations.SyndromeFormsAgree : Prop :=
  ∀ h : HData,
    (∀ c, syn h c = par h (dataOf c) ^^^ parityOf c) ∧
    (∀ c, syn h c = 0 ↔ c = enc h (dataOf c)) ∧
    (∀ a b, syn h (a ^^^ b) = syn h a ^^^ syn h b) ∧
    ∀ i, syn h (onehot16 i) = col h i

/-- R182: decode(c) is the first match of the scan: zero, then the columns, then the pairs, in ascending order. -/
def Obligations.DecodeIsTheFirstMatchOfTheScan : Prop :=
  ∀ (h : HData) (c : Codeword),
    (decodeWord h c).syndrome = syn h c ∧
    (syn h c = 0 → (decodeWord h c).cls = .noError ∧ (decodeWord h c).data = dataOf c) ∧
    (∀ i, syn h c ≠ 0 → syn h c = col h i → (∀ i', i' < i → syn h c ≠ col h i') →
      (decodeWord h c).cls = .singleBitError i ∧ (decodeWord h c).data = dataOf (c ^^^ onehot16 i)) ∧
    (∀ i j, syn h c ≠ 0 → (∀ m, syn h c ≠ col h m) → i < j → syn h c = col h i ^^^ col h j →
      (∀ i' j', i' < j' → (i' < i ∨ i' = i ∧ j' < j) → syn h c ≠ col h i' ^^^ col h j') →
      (decodeWord h c).cls = .doubleBitError i j ∧
        (decodeWord h c).data = dataOf (c ^^^ onehot16 i ^^^ onehot16 j)) ∧
    (syn h c ≠ 0 → (∀ m, syn h c ≠ col h m) → (∀ i j, i < j → syn h c ≠ col h i ^^^ col h j) →
      (decodeWord h c).cls = .unresolvable ∧ (decodeWord h c).data = dataOf c) ∧
    (ErrorClass.noError.p0 = 0 ∧ ErrorClass.noError.p1 = 0 ∧ ErrorClass.unresolvable.p0 = 0 ∧
      ErrorClass.unresolvable.p1 = 0 ∧
      ∀ i j, (ErrorClass.singleBitError i).p0 = i ∧ (ErrorClass.singleBitError i).p1 = 0 ∧
        (ErrorClass.doubleBitError i j).p0 = i ∧ (ErrorClass.doubleBitError i j).p1 = j)

/-- R183, R50: the fields of a packed result, and the repaired codeword a host rebuilds from them. -/
def Obligations.DecodeResultHasItsFields : Prop :=
  ∀ (h : HData) (c : Codeword),
    (decres h c).extractLsb' 0 8 = (decodeWord h c).data ∧
    (decres h c).extractLsb' 8 8 = (decodeWord h c).syndrome ∧
    ((decres h c).extractLsb' 16 4).toNat = (decodeWord h c).cls.p0.val ∧
    ((decres h c).extractLsb' 20 4).toNat = (decodeWord h c).cls.p1.val ∧
    (decres h c).extractLsb' 24 2 = (match (decodeWord h c).cls with
      | .noError => 0
      | .singleBitError _ => 1
      | .doubleBitError _ _ => 2
      | .unresolvable => 3) ∧
    (decres h c).extractLsb' 26 6 = 0 ∧
    ((decres h c).extractLsb' 24 2 = 1 →
      repair c (decodeWord h c).cls = c ^^^ onehot16 (decodeWord h c).cls.p0 ∧
        dataOf (c ^^^ onehot16 (decodeWord h c).cls.p0) = (decodeWord h c).data) ∧
    ((decres h c).extractLsb' 24 2 = 2 →
      repair c (decodeWord h c).cls = c ^^^ onehot16 (decodeWord h c).cls.p0 ^^^ onehot16 (decodeWord h c).cls.p1 ∧
        dataOf (c ^^^ onehot16 (decodeWord h c).cls.p0 ^^^ onehot16 (decodeWord h c).cls.p1) = (decodeWord h c).data)

/-- R185: DEC answers the decode result, or MATRIX_INVALID when MOK is 0. An unresolvable word is no error. -/
def Obligations.DecAnswersTheDecodeResult : Prop :=
  ∀ (s : State) (c : Codeword),
    (s.stat.mok = true → exec (.dec c) s = .next (okState s (decres s.hData c))) ∧
    (s.stat.mok = false → exec (.dec c) s = .next (errState s 5))

/-- R186: DECW answers the decode result of RX[K] and leaves RX as it is; INDEX_RANGE, then MATRIX_INVALID, then the model
fault. -/
def Obligations.DecwAnswersTheDecodeResultOfRx : Prop :=
  ∀ (s : State) (k : Nat),
    (∀ c, k < s.nWords → s.stat.mok = true → s.rx.read? k = some c →
      exec (.decw k) s = .next (okState s (decres s.hData c))) ∧
    (s.nWords ≤ k → exec (.decw k) s = .next (errState s 2)) ∧
    (k < s.nWords → s.stat.mok = false → exec (.decw k) s = .next (errState s 5)) ∧
    (k < s.nWords → s.stat.mok = true → s.rx.read? k = none → exec (.decw k) s = .fault .unwrittenRead)

/-- R187: a flip at a parity position never changes the repaired data. -/
def Obligations.ParityFlipsNeverChangeTheData : Prop :=
  ∀ (h : HData) (c : Codeword),
    (∀ i : Fin 16, 8 ≤ i.val → dataOf (c ^^^ onehot16 i) = dataOf c) ∧
    (∀ i : Fin 16, 8 ≤ i.val → (decodeWord h c).cls = .singleBitError i → (decodeWord h c).data = dataOf c) ∧
    (∀ i j : Fin 16, 8 ≤ i.val → 8 ≤ j.val → (decodeWord h c).cls = .doubleBitError i j →
      (decodeWord h c).data = dataOf c)

/-- R190: every single flip of every codeword is decoded to its position and its data exactly when the 16 columns of H are
non-zero and distinct, which is what the self-check tests. -/
def Obligations.SingleErrorsAreCorrectedIffColumnsDistinct : Prop :=
  ∀ h : HData,
    ((selfcheck h).ok = true ↔ ColumnsDistinct h) ∧
    (ColumnsDistinct h ↔ ∀ (d : DataWord) (i : Fin 16),
      decodeWord h (enc h d ^^^ onehot16 i) = ⟨.singleBitError i, d, col h i⟩)

/-- R191: with distinct non-zero columns, every double flip of every codeword is decoded to its pair and its data exactly
when the pair sums are distinct from each other and from the columns. -/
def Obligations.DoubleErrorsAreCorrectedIffPairSumsDistinct : Prop :=
  ∀ h : HData, ColumnsDistinct h →
    (PairSumsDistinct h ↔ ∀ (d : DataWord) (i j : Fin 16), i < j →
      decodeWord h (enc h d ^^^ onehot16 i ^^^ onehot16 j) = ⟨.doubleBitError i j, d, col h i ^^^ col h j⟩)

/-- R192: a codeword decodes to its data with no error, for every H_DATA. -/
def Obligations.CleanCodewordsDecodeToTheirData : Prop :=
  ∀ (h : HData) (d : DataWord), decodeWord h (enc h d) = ⟨.noError, d, 0⟩

/-- R193: what DECW answers depends on the word, H and MOK alone: not on another word, an earlier decode, or the log. -/
def Obligations.DecodingDependsOnTheWordAndHAlone : Prop :=
  ∀ (s s' t : State) (k : Nat), s.hData = s'.hData → s.stat.mok = s'.stat.mok → s.nWords = s'.nWords →
    s.rx.read? k = s'.rx.read? k → exec (.decw k) s = .next t →
    ∃ t', exec (.decw k) s' = .next t' ∧ t'.res = t.res ∧ t'.stat.err = t.stat.err ∧ t'.stat.ecode = t.stat.ecode

/-! ## Noise injector (42_noise_injector.md) -/

/-- R161: whatever the random source does, a draw is n pairwise distinct numbers, each below the size of the space.
(The form of the source is log entry 6.) -/
def Obligations.DrawsAreDistinctAndInRange : Prop :=
  ∀ (s : State) (n m : Nat), n ≤ m →
    (s.draw n m).length = n ∧ (s.draw n m).Nodup ∧ ∀ p ∈ s.draw n m, p < m

/-- R161: every sequence of n distinct numbers below m, in every order, is a draw: some input supplies it, and some run of
free choices makes it (log entry 6). -/
def Obligations.EveryDrawIsPossible : Prop :=
  ∀ (q : List Nat) (n m : Nat), q.length = n → q.Nodup → (∀ p ∈ q, p < m) →
    (∀ s : State, ({ s with draws := q :: s.draws } : State).draw n m = q) ∧
    ∃ choice : Nat → Nat, takeFrom choice (List.range m) n = q

/-- R160: INJ completes for every batch length 0..N_WORDS whose TX words are written and every error count 0..16*L. For the
draw q of this state: RX[k] is TX[k] with the drawn positions flipped for k < L and as before for k >= L; LOG[t] is
q[t] for t < n and as before from n on; LOGCNT and RES are n; the random source moves on (log entry 6); nothing else
changes. -/
def Obligations.InjCorruptsTheBatch : Prop :=
  ∀ (s : State) (l n : Nat), s.nWords ≤ 4095 → l ≤ s.nWords → n ≤ 16 * l → (∀ k, k < l → s.txw k = true) →
    ∃ rx log : Memory,
      exec (.inj l n) s = .next (okState
        { s with rx := rx, log := log, stat := { s.stat with logcnt := BitVec.ofNat 16 n }
                 draws := s.draws.tail, drawCount := s.drawCount + 1 } (BitVec.ofNat 32 n)) ∧
      (BitVec.ofNat 16 n).toNat = n ∧
      (∀ k, k < l → ∃ c, s.tx.read? k = some c ∧ rx.read? k = some (c ^^^ flipMask (s.draw n (16 * l)) k)) ∧
      (∀ k, l ≤ k → rx.read? k = s.rx.read? k) ∧
      (∀ t, t < n → ∃ p, (s.draw n (16 * l))[t]? = some p ∧ log.read? t = some (BitVec.ofNat 16 p)) ∧
      (∀ e, n ≤ e → log.read? e = s.log.read? e)

/-- R160, R164: the mask of word k has a 1 exactly at the positions b for which 16 * k + b was drawn. -/
def Obligations.FlipMaskHasTheDrawnPositions : Prop :=
  ∀ (q : List Nat) (k : Nat), q.Nodup → ∀ b : Fin 16, atPosition (flipMask q k) b = true ↔ 16 * k + b.val ∈ q

/-- R160: n = 0 copies the batch and n = 16 * L flips every bit of it, for every draw. -/
def Obligations.NoFlipsCopyAndAllFlipsInvert : Prop :=
  ∀ (s t : State) (l : Nat),
    (exec (.inj l 0) s = .next t → t.stat.err = false → ∀ k, k < l → t.rx.read? k = s.tx.read? k ∧ t.rxw k = true) ∧
    (exec (.inj l (16 * l)) s = .next t → t.stat.err = false →
      ∀ k, k < l → ∃ c, s.tx.read? k = some c ∧ t.rx.read? k = some (c ^^^ 0xFFFF))

/-- R165: after a successful INJ the log lists n distinct positions, the bits of RX[k] XOR TX[k] are exactly the listed ones of
word k, as many as its entries, and n in the whole batch. -/
def Obligations.InjFlipsExactlyTheLoggedBits : Prop :=
  ∀ (s t : State) (l n : Nat), s.nWords ≤ 4095 → exec (.inj l n) s = .next t → t.stat.err = false →
    t.stat.logcnt.toNat = n ∧
    (∀ e e', e < n → e' < n → t.logEntry e = t.logEntry e' → e = e') ∧
    (∀ k, k < l → ∃ x y, t.tx.read? k = some x ∧ t.rx.read? k = some y ∧
      (∀ b : Fin 16, atPosition (y ^^^ x) b = true ↔
        ∃ e, e < n ∧ (t.logEntry e).toNat / 16 = k ∧ (t.logEntry e).toNat % 16 = b.val) ∧
      popcount (y ^^^ x) = ((List.range n).filter fun e => decide ((t.logEntry e).toNat / 16 = k)).length) ∧
    ((List.range l).map fun k => popcount ((t.rx.read? k).getD 0 ^^^ (t.tx.read? k).getD 0)).sum = n

/-- R163: LOGRD answers the entry below LOGCNT, and INDEX_RANGE at or above it. An entry some INJ wrote is what that INJ
wrote; what another entry holds is a free value (log entry 5), and the statement holds whatever it is. -/
def Obligations.LogrdAnswersTheEntry : Prop :=
  ∀ (s : State) (e : Nat),
    (e < s.stat.logcnt.toNat → exec (.logrd e) s = .next (okState s ((s.logEntry e).setWidth 32))) ∧
    (∀ v, s.log.read? e = some v → s.logEntry e = v) ∧
    (s.stat.logcnt.toNat ≤ e → exec (.logrd e) s = .next (errState s 2))

/-! ## Buffer access and control (44_buffer_and_control.md) -/

/-- R210: NOP answers 0 and clears ERR and ECODE, not SERR. -/
def Obligations.NopAnswersZero : Prop :=
  ∀ s : State, exec .nop s = .next (okState s 0)

/-- R211: WRTX writes any 16-bit value to TX[K] and answers it; every other TX word and all other state stay. -/
def Obligations.WrtxWritesTheWordToTx : Prop :=
  ∀ (s : State) (k : Nat) (c : Codeword),
    (k < s.nWords → ∃ m : Memory,
      exec (.wrtx k c) s = .next (okState { s with tx := m } (c.setWidth 32)) ∧
        m.read? k = some c ∧ (∀ k', k' ≠ k → m.read? k' = s.tx.read? k') ∧ (s.tx.wf → m.wf)) ∧
    (s.nWords ≤ k → exec (.wrtx k c) s = .next (errState s 2))

/-- R212, R213, R51: RDTX and RDRX answer the word, INDEX_RANGE out of range, and fault on a word not written since reset. -/
def Obligations.RdtxAndRdrxAnswerTheWord : Prop :=
  ∀ (s : State) (k : Nat),
    (k < s.nWords → ∀ c, s.tx.read? k = some c → exec (.rdtx k) s = .next (okState s (c.setWidth 32))) ∧
    (k < s.nWords → ∀ c, s.rx.read? k = some c → exec (.rdrx k) s = .next (okState s (c.setWidth 32))) ∧
    (s.nWords ≤ k → exec (.rdtx k) s = .next (errState s 2) ∧ exec (.rdrx k) s = .next (errState s 2)) ∧
    (k < s.nWords → s.txw k = false → exec (.rdtx k) s = .fault .unwrittenRead) ∧
    (k < s.nWords → s.rxw k = false → exec (.rdrx k) s = .fault .unwrittenRead)

/-! ## The invariant -/

/-- The machine after power-up, with N_WORDS in its range, meets the invariant, and so does State.reset (log entry 1). -/
def Obligations.ResetMeetsTheInvariant : Prop :=
  (∀ (h : HData) (n : Nat), 1 ≤ n → n ≤ 4095 → Inv (State.powerUp h n)) ∧ Inv State.reset

/-- From every state that meets the invariant, a step that answers a next state answers one that meets it. -/
def Obligations.EveryStepKeepsTheInvariant : Prop :=
  ∀ s t : State, Inv s → step s = .next t → Inv t
end

