-- ==== Sys2Proof/Laws/Bits.lean ====
section
/-!
SUPPORT. Positions and parity: a word is given by its positions, and parity is linear.
-/

namespace Sys2Proof.Machine

/-- Bus bit n-1-i of the word given by its positions is position i. -/
theorem getLsbD_ofPositions {n : Nat} (f : Fin n → Bool) (b : Nat) :
    (ofPositions f).getLsbD b = if h : b < n then f ⟨n - 1 - b, by omega⟩ else false := by
  induction n generalizing b with
  | zero => simp [ofPositions]
  | succ n ih =>
    simp only [ofPositions, BitVec.getLsbD_concat]
    cases b with
    | zero => simp [Fin.last]
    | succ b =>
      by_cases h : b < n
      · have h' : b + 1 < n + 1 := by omega
        rw [dif_pos h', if_neg (Nat.add_one_ne_zero b), Nat.add_sub_cancel, ih, dif_pos h]
        refine congrArg f (Fin.ext ?_)
        simp only [Fin.val_castSucc]
        omega
      · simp [ih, h]

/-- Position i of the word given by its positions. -/
@[simp] theorem atPosition_ofPositions {n : Nat} (f : Fin n → Bool) (i : Fin n) :
    atPosition (ofPositions f) i = f i := by
  have hi := i.isLt
  have h : n - 1 - i.val < n := by omega
  simp only [atPosition, BitVec.getMsbD, getLsbD_ofPositions, hi, h, dite_true, decide_true, Bool.true_and]
  refine congrArg f (Fin.ext ?_)
  simp only
  omega

/-- Two words with the same positions are equal. -/
theorem eq_of_atPosition {n : Nat} {v w : BitVec n} (h : ∀ i, atPosition v i = atPosition w i) : v = w :=
  BitVec.eq_of_getMsbD_eq fun i hi => h ⟨i, hi⟩

@[simp] theorem atPosition_xor {n : Nat} (v w : BitVec n) (i : Fin n) :
    atPosition (v ^^^ w) i = (atPosition v i ^^ atPosition w i) := by
  simp [atPosition, BitVec.getMsbD_xor]

@[simp] theorem atPosition_zero {n : Nat} (i : Fin n) : atPosition (0 : BitVec n) i = false := by
  simp [atPosition, BitVec.getMsbD]

theorem xorBits_xor {w : Nat} (a b : BitVec w) (n : Nat) :
    xorBits (a ^^^ b) n = (xorBits a n ^^ xorBits b n) := by
  induction n with
  | zero => rfl
  | succ n ih =>
    simp only [xorBits, ih, BitVec.getLsbD_xor]
    cases xorBits a n <;> cases xorBits b n <;> cases a.getLsbD n <;> cases b.getLsbD n <;> rfl

/-- Parity is linear over GF(2). -/
theorem parity_xor {w : Nat} (a b : BitVec w) : parity (a ^^^ b) = (parity a ^^ parity b) := xorBits_xor a b w

/-- H's parity block is the identity, its data block is H_DATA (R32, R33). -/
theorem entry_data (h : HData) (j : Fin 8) (i : Fin 16) (hi : i.val < 8) :
    entry h j i = atPosition h[j] ⟨i.val, hi⟩ := by simp [entry, hi]

theorem entry_parity (h : HData) (j m : Fin 8) (i : Fin 16) (hi : i.val = 8 + m.val) :
    entry h j i = decide (m = j) := by
  have : ¬ i.val < 8 := by omega
  rw [entry, dif_neg this, decide_eq_decide]
  omega

theorem mem_positions (i : Fin 16) : i ∈ positions := List.mem_finRange i

theorem mem_pairs {i j : Fin 16} : (i, j) ∈ pairs ↔ i < j := by
  simp only [pairs, List.mem_flatMap, List.mem_map, List.mem_filter, decide_eq_true_eq, Prod.mk.injEq]
  constructor
  · rintro ⟨a, -, b, ⟨-, hab⟩, rfl, rfl⟩
    exact hab
  · intro h
    exact ⟨i, mem_positions i, j, ⟨mem_positions j, h⟩, rfl, rfl⟩

end Sys2Proof.Machine
end

