-- ==== Sys2Proof/Laws/Decode.lean ====
section
/-!
SUPPORT. The bits of a word of format C, and its fields.
-/

namespace Sys2Proof

/-- Bit b of a word of format C: V below 16, K below 28, OP above (R90). -/
theorem getLsbD_formatC (op : BitVec 4) (k : BitVec 12) (v : BitVec 16) (b : Nat) :
    (formatC op k v).getLsbD b =
      if b < 16 then v.getLsbD b else if b < 28 then k.getLsbD (b - 16) else op.getLsbD (b - 28) := by
  have h : (formatC op k v).getLsbD b = ((op ++ k) ++ v : BitVec (4 + 12 + 16)).getLsbD b := rfl
  rw [h, BitVec.getLsbD_append, BitVec.getLsbD_append]
  by_cases h1 : b < 16
  · simp [h1]
  · by_cases h2 : b < 28
    · have : b - 16 < 12 := by omega
      simp [h1, h2, this]
    · have : ¬ b - 16 < 12 := by omega
      simp [h1, h2, this, show b - 16 - 12 = b - 28 by omega]

@[simp] theorem opField_formatC (op : BitVec 4) (k : BitVec 12) (v : BitVec 16) : opField (formatC op k v) = op := by
  refine BitVec.eq_of_getLsbD_eq fun i hi => ?_
  have h1 : ¬ 28 + i < 16 := by omega
  have h2 : ¬ 28 + i < 28 := by omega
  simp [opField, getLsbD_formatC, hi, h1]

@[simp] theorem kField_formatC (op : BitVec 4) (k : BitVec 12) (v : BitVec 16) : kField (formatC op k v) = k := by
  refine BitVec.eq_of_getLsbD_eq fun i hi => ?_
  have h2 : 16 + i < 28 := by omega
  simp [kField, getLsbD_formatC, hi, h2]

@[simp] theorem vField_formatC (op : BitVec 4) (k : BitVec 12) (v : BitVec 16) : vField (formatC op k v) = v := by
  refine BitVec.eq_of_getLsbD_eq fun i hi => ?_
  simp [vField, getLsbD_formatC, hi]

/-- A word is its three fields. -/
theorem formatC_fields (w : Word) : formatC (opField w) (kField w) (vField w) = w := by
  refine BitVec.eq_of_getLsbD_eq fun i hi => ?_
  rw [getLsbD_formatC]
  by_cases h1 : i < 16
  · simp [h1, vField]
  · by_cases h2 : i < 28
    · have h3 : i - 16 < 12 := by omega
      simp [h1, h2, h3, kField, show 16 + (i - 16) = i by omega]
    · have h3 : i - 28 < 4 := by omega
      simp [h1, h2, h3, opField, show 28 + (i - 28) = i by omega]

/-- Two words of format C are equal only field by field. -/
theorem formatC_inj {op op' : BitVec 4} {k k' : BitVec 12} {v v' : BitVec 16}
    (h : formatC op k v = formatC op' k' v') : op = op' ∧ k = k' ∧ v = v' :=
  ⟨by simpa using congrArg opField h, by simpa using congrArg kField h, by simpa using congrArg vField h⟩

/-- Masking K and keeping OP and V. -/
theorem formatC_and (op : BitVec 4) (k : BitVec 12) (v : BitVec 16) (op' : BitVec 4) (k' : BitVec 12) (v' : BitVec 16) :
    formatC op k v &&& formatC op' k' v' = formatC (op &&& op') (k &&& k') (v &&& v') := by
  refine BitVec.eq_of_getLsbD_eq fun i hi => ?_
  simp only [BitVec.getLsbD_and, getLsbD_formatC]
  split
  · rfl
  · split <;> rfl

@[simp] theorem toNat_toK (k : Nat) (h : fitsK k = true) : (toK k).toNat = k := by
  simp only [fitsK, decide_eq_true_eq] at h
  simp only [toK, BitVec.toNat_ofNat]
  omega

@[simp] theorem toNat_toV (v : Nat) (h : fitsV v = true) : (toV v).toNat = v := by
  simp only [fitsV, decide_eq_true_eq] at h
  simp only [toV, BitVec.toNat_ofNat]
  omega

/-- A row that fixes OP, and K or V or neither, selects a word of format C by its fields (R92, R93). -/
theorem selects_formatC {op op' : BitVec 4} {k k' : BitVec 12} {v v' : BitVec 16} (r : OpcodeRow)
    (hm : r.mask = formatC 0xF k' v') (hp : r.pattern = formatC op 0 0) :
    r.selects (formatC op' k v) = true ↔ op' = op ∧ k &&& k' = 0 ∧ v &&& v' = 0 := by
  have h : op' &&& 0xF = op' := BitVec.and_allOnes
  simp only [OpcodeRow.selects, decide_eq_true_eq, hm, hp, formatC_and, h]
  constructor
  · exact formatC_inj
  · rintro ⟨rfl, hk, hv⟩
    rw [hk, hv]

/-- The mask of a row is its must-be-zero fields, and its pattern is its opcode (R92). -/
theorem opcodeRows_shape : ∀ r ∈ opcodeRows, ∃ k v, (k = 0 ∨ k = 0xFFF) ∧ (v = 0 ∨ v = 0xFFFF) ∧
    r.mask = formatC 0xF k v ∧ r.pattern = formatC r.op 0 0 := by
  intro r hr
  simp only [opcodeRows, List.cons_append, List.nil_append, List.mem_cons, List.not_mem_nil, or_false] at hr
  rcases hr with rfl | rfl | rfl | rfl | rfl | rfl | rfl | rfl | rfl | rfl | rfl | rfl | rfl | rfl
  · exact ⟨0xFFF, 0xFFFF, .inr rfl, .inr rfl, rfl, rfl⟩
  · exact ⟨0xFFF, 0, .inr rfl, .inl rfl, rfl, rfl⟩
  · exact ⟨0xFFF, 0, .inr rfl, .inl rfl, rfl, rfl⟩
  · exact ⟨0xFFF, 0, .inr rfl, .inl rfl, rfl, rfl⟩
  · exact ⟨0, 0xFFFF, .inl rfl, .inr rfl, rfl, rfl⟩
  · exact ⟨0, 0xFFFF, .inl rfl, .inr rfl, rfl, rfl⟩
  · exact ⟨0, 0, .inl rfl, .inl rfl, rfl, rfl⟩
  · exact ⟨0, 0, .inl rfl, .inl rfl, rfl, rfl⟩
  · exact ⟨0, 0xFFFF, .inl rfl, .inr rfl, rfl, rfl⟩
  · exact ⟨0, 0xFFFF, .inl rfl, .inr rfl, rfl, rfl⟩
  · exact ⟨0, 0, .inl rfl, .inl rfl, rfl, rfl⟩
  · exact ⟨0, 0xFFFF, .inl rfl, .inr rfl, rfl, rfl⟩
  · exact ⟨0xFFF, 0, .inr rfl, .inl rfl, rfl, rfl⟩
  · exact ⟨0xFFF, 0xFFFF, .inr rfl, .inr rfl, rfl, rfl⟩

/-- What accept answers. -/
theorem accept_eq (r : OpcodeRow) (w : Word) (i : Instr) :
    accept r w i = if r.selects w then .ok i else .error .mustBeZero := rfl

end Sys2Proof
end

