-- ==== Sys2Proof/Laws/Memory.lean ====
section
/-!
SUPPORT. The laws of the indexed storage: read after write, what a write leaves alone, and that every operation keeps the
canonical form.
-/

namespace Sys2Proof.Machine

@[simp] theorem Memory.read?_nil (k : Nat) : Memory.read? [] k = none := rfl

@[simp] theorem Memory.written_nil (k : Nat) : Memory.written [] k = false := rfl

theorem Memory.wf_nil : Memory.wf [] := List.Pairwise.nil

/-- A write at k reads as the written word at k and as before everywhere else. -/
theorem Memory.read?_write (m : Memory) (k : Nat) (v : Codeword) (j : Nat) :
    Memory.read? (Memory.write m k v) j = if j = k then some v else Memory.read? m j := by
  induction m with
  | nil => simp [Memory.write, Memory.read?]
  | cons c m ih =>
    obtain ⟨a, x⟩ := c
    simp only [Memory.write]
    split
    · simp [Memory.read?]
    · split
      · subst_vars
        by_cases h : j = a <;> simp [Memory.read?, h]
      · simp only [Memory.read?, ih]
        by_cases h : j = a
        · have : j ≠ k := by omega
          simp [h]
          omega
        · simp [h]

@[simp] theorem Memory.read?_write_same (m : Memory) (k : Nat) (v : Codeword) :
    Memory.read? (Memory.write m k v) k = some v := by simp [Memory.read?_write]

theorem Memory.read?_write_other (m : Memory) {k j : Nat} (v : Codeword) (h : j ≠ k) :
    Memory.read? (Memory.write m k v) j = Memory.read? m j := by simp [Memory.read?_write, h]

theorem Memory.written_write (m : Memory) (k : Nat) (v : Codeword) (j : Nat) :
    Memory.written (Memory.write m k v) j = (decide (j = k) || Memory.written m j) := by
  by_cases h : j = k <;> simp [Memory.written, Memory.read?_write, h]

/-- The cells of a memory after a write are the written one and old ones. -/
theorem Memory.mem_write {m : Memory} {k : Nat} {v : Codeword} {c : Nat × Codeword}
    (h : c ∈ Memory.write m k v) : c = (k, v) ∨ c ∈ m := by
  induction m with
  | nil => simpa [Memory.write] using h
  | cons d m ih =>
    simp only [Memory.write] at h
    split at h
    · simpa using h
    · split at h
      · rcases List.mem_cons.1 h with h | h
        · exact .inl h
        · exact .inr (List.mem_cons_of_mem _ h)
      · rcases List.mem_cons.1 h with h | h
        · exact .inr (h ▸ List.mem_cons_self)
        · exact (ih h).imp_right (List.mem_cons_of_mem _)

/-- A write keeps the canonical form. -/
theorem Memory.wf_write {m : Memory} (k : Nat) (v : Codeword) (h : Memory.wf m) :
    Memory.wf (Memory.write m k v) := by
  induction m with
  | nil => simp [Memory.write, Memory.wf]
  | cons d m ih =>
    obtain ⟨a, x⟩ := d
    have ⟨hd, hm⟩ := List.pairwise_cons.1 h
    simp only [Memory.write]
    split
    · rename_i hk
      refine List.pairwise_cons.2 ⟨fun c hc => ?_, h⟩
      rcases List.mem_cons.1 hc with rfl | hc
      · exact hk
      · exact lt_trans hk (hd c hc)
    · split
      · rename_i hk
        subst hk
        exact List.pairwise_cons.2 ⟨hd, hm⟩
      · refine List.pairwise_cons.2 ⟨fun c hc => ?_, ih hm⟩
        rcases Memory.mem_write hc with rfl | hc
        · simp only
          omega
        · exact hd c hc

theorem Memory.below_write {m : Memory} {k n : Nat} (v : Codeword) (h : Memory.below m n) (hk : k < n) :
    Memory.below (Memory.write m k v) n := by
  intro c hc
  rcases Memory.mem_write hc with rfl | hc
  · exact hk
  · exact h c hc

/-- Writing the same word twice is writing it once. -/
theorem Memory.write_write_same (m : Memory) (k : Nat) (v : Codeword) :
    Memory.write (Memory.write m k v) k v = Memory.write m k v := by
  induction m with
  | nil => simp [Memory.write]
  | cons d m ih =>
    obtain ⟨a, x⟩ := d
    simp only [Memory.write]
    split
    · simp [Memory.write]
    · split
      · simp [Memory.write]
      · simp [Memory.write, *]

/-- Reading a block answers its words, or nothing when one is unwritten. -/
theorem Memory.readFrom_eq_some {m : Memory} {b n : Nat} {vs : List Codeword} :
    Memory.readFrom m b n = some vs ↔ vs.length = n ∧ ∀ j, j < n → Memory.read? m (b + j) = vs[j]? := by
  induction n generalizing b vs with
  | zero =>
    cases vs <;> simp [Memory.readFrom]
  | succ n ih =>
    simp only [Memory.readFrom]
    constructor
    · intro h
      split at h
      · rename_i v ws hv hw
        cases h
        obtain ⟨hl, hj⟩ := ih.1 hw
        refine ⟨by simp [hl], fun j hjn => ?_⟩
        cases j with
        | zero => simpa using hv
        | succ j =>
          have := hj j (by omega)
          simp only [List.getElem?_cons_succ]
          rw [← this]
          congr 1
          omega
      · cases h
    · rintro ⟨hl, hj⟩
      cases vs with
      | nil => simp at hl
      | cons v ws =>
        have h0 := hj 0 (by omega)
        have hw : Memory.readFrom m (b + 1) n = some ws := by
          refine ih.2 ⟨by simpa using hl, fun j hjn => ?_⟩
          have := hj (j + 1) (by omega)
          simp only [List.getElem?_cons_succ] at this
          rw [← this]
          congr 1
          omega
        simp only [Nat.add_zero, List.getElem?_cons_zero] at h0
        simp [h0, hw]

theorem Memory.readFrom_isSome {m : Memory} {b n : Nat} :
    (Memory.readFrom m b n).isSome = true ↔ ∀ j, j < n → Memory.written m (b + j) = true := by
  induction n generalizing b with
  | zero => simp [Memory.readFrom]
  | succ n ih =>
    constructor
    · intro h j hj
      obtain ⟨vs, hvs⟩ := Option.isSome_iff_exists.1 h
      obtain ⟨hl, hr⟩ := Memory.readFrom_eq_some.1 hvs
      have : j < vs.length := by omega
      simp [Memory.written, hr j hj, this]
    · intro h
      have h0 := h 0 (by omega)
      have h1 : (Memory.readFrom m (b + 1) n).isSome = true := by
        refine ih.2 fun j hj => ?_
        have := h (j + 1) (by omega)
        rwa [show b + (j + 1) = b + 1 + j by omega] at this
      obtain ⟨v, hv⟩ := Option.isSome_iff_exists.1 h0
      obtain ⟨ws, hw⟩ := Option.isSome_iff_exists.1 h1
      simp only [Nat.add_zero] at hv
      simp [Memory.readFrom, hv, hw]

/-- A block write reads as its words inside the block and as before outside it. -/
theorem Memory.read?_writeFrom (m : Memory) (b : Nat) (vs : List Codeword) (j : Nat) :
    Memory.read? (Memory.writeFrom m b vs) j =
      if b ≤ j ∧ j < b + vs.length then vs[j - b]? else Memory.read? m j := by
  induction vs generalizing m b with
  | nil =>
    have : ¬ (b ≤ j ∧ j < b) := by omega
    simp [Memory.writeFrom, this]
  | cons v vs ih =>
    simp only [Memory.writeFrom, ih, List.length_cons, Memory.read?_write]
    by_cases h : j = b
    · subst h
      simp
    · by_cases h' : b + 1 ≤ j ∧ j < b + 1 + vs.length
      · have : b ≤ j ∧ j < b + (vs.length + 1) := by omega
        simp only [h', this, and_self, if_true]
        rw [show j - b = j - (b + 1) + 1 by omega, List.getElem?_cons_succ]
      · have : ¬ (b ≤ j ∧ j < b + (vs.length + 1)) := by omega
        rw [if_neg h', if_neg this, if_neg h]

theorem Memory.wf_writeFrom {m : Memory} (b : Nat) (vs : List Codeword) (h : Memory.wf m) :
    Memory.wf (Memory.writeFrom m b vs) := by
  induction vs generalizing m b with
  | nil => exact h
  | cons v vs ih => exact ih (b + 1) (Memory.wf_write b v h)

theorem Memory.below_writeFrom {m : Memory} {b n : Nat} (vs : List Codeword) (h : Memory.below m n)
    (hb : b + vs.length ≤ n) : Memory.below (Memory.writeFrom m b vs) n := by
  induction vs generalizing m b with
  | nil => exact h
  | cons v vs ih =>
    simp only [List.length_cons] at hb
    exact ih (Memory.below_write v h (by omega)) (by omega)

end Sys2Proof.Machine
end

