-- ==== Sys2Proof/Laws/State.lean ====
section
/-!
SUPPORT. One lemma per field per update of State and Stat, each true by rfl.
-/

namespace Sys2Proof.Machine

variable (s : State) (t : Stat)

@[simp] theorem Stat.succeed_err : (t.succeed).err = false := rfl
@[simp] theorem Stat.succeed_ecode : (t.succeed).ecode = 0 := rfl
@[simp] theorem Stat.succeed_serr : (t.succeed).serr = t.serr := rfl
@[simp] theorem Stat.succeed_mok : (t.succeed).mok = t.mok := rfl
@[simp] theorem Stat.succeed_logcnt : (t.succeed).logcnt = t.logcnt := rfl

@[simp] theorem Stat.fail_err (e : ErrCode) : (t.fail e).err = true := rfl
@[simp] theorem Stat.fail_ecode (e : ErrCode) : (t.fail e).ecode = e.code := rfl
@[simp] theorem Stat.fail_serr (e : ErrCode) : (t.fail e).serr = true := rfl
@[simp] theorem Stat.fail_mok (e : ErrCode) : (t.fail e).mok = t.mok := rfl
@[simp] theorem Stat.fail_logcnt (e : ErrCode) : (t.fail e).logcnt = t.logcnt := rfl

@[simp] theorem Stat.setMok_err (b : Bool) : (t.setMok b).err = t.err := rfl
@[simp] theorem Stat.setMok_ecode (b : Bool) : (t.setMok b).ecode = t.ecode := rfl
@[simp] theorem Stat.setMok_serr (b : Bool) : (t.setMok b).serr = t.serr := rfl
@[simp] theorem Stat.setMok_mok (b : Bool) : (t.setMok b).mok = b := rfl
@[simp] theorem Stat.setMok_logcnt (b : Bool) : (t.setMok b).logcnt = t.logcnt := rfl

@[simp] theorem Stat.setLogcnt_err (n : Nat) : (t.setLogcnt n).err = t.err := rfl
@[simp] theorem Stat.setLogcnt_ecode (n : Nat) : (t.setLogcnt n).ecode = t.ecode := rfl
@[simp] theorem Stat.setLogcnt_serr (n : Nat) : (t.setLogcnt n).serr = t.serr := rfl
@[simp] theorem Stat.setLogcnt_mok (n : Nat) : (t.setLogcnt n).mok = t.mok := rfl
@[simp] theorem Stat.setLogcnt_logcnt (n : Nat) : (t.setLogcnt n).logcnt = BitVec.ofNat 16 n := rfl

@[simp] theorem State.succeed_hData (r : Word) : (s.succeed r).hData = s.hData := rfl
@[simp] theorem State.succeed_nWords (r : Word) : (s.succeed r).nWords = s.nWords := rfl
@[simp] theorem State.succeed_res (r : Word) : (s.succeed r).res = r := rfl
@[simp] theorem State.succeed_stat (r : Word) : (s.succeed r).stat = s.stat.succeed := rfl
@[simp] theorem State.succeed_tx (r : Word) : (s.succeed r).tx = s.tx := rfl
@[simp] theorem State.succeed_rx (r : Word) : (s.succeed r).rx = s.rx := rfl
@[simp] theorem State.succeed_log (r : Word) : (s.succeed r).log = s.log := rfl
@[simp] theorem State.succeed_draws (r : Word) : (s.succeed r).draws = s.draws := rfl
@[simp] theorem State.succeed_drawCount (r : Word) : (s.succeed r).drawCount = s.drawCount := rfl
@[simp] theorem State.succeed_port (r : Word) : (s.succeed r).port = s.port := rfl

@[simp] theorem State.fail_hData (e : ErrCode) : (s.fail e).hData = s.hData := rfl
@[simp] theorem State.fail_nWords (e : ErrCode) : (s.fail e).nWords = s.nWords := rfl
@[simp] theorem State.fail_res (e : ErrCode) : (s.fail e).res = 0 := rfl
@[simp] theorem State.fail_stat (e : ErrCode) : (s.fail e).stat = s.stat.fail e := rfl
@[simp] theorem State.fail_tx (e : ErrCode) : (s.fail e).tx = s.tx := rfl
@[simp] theorem State.fail_rx (e : ErrCode) : (s.fail e).rx = s.rx := rfl
@[simp] theorem State.fail_log (e : ErrCode) : (s.fail e).log = s.log := rfl
@[simp] theorem State.fail_draws (e : ErrCode) : (s.fail e).draws = s.draws := rfl
@[simp] theorem State.fail_drawCount (e : ErrCode) : (s.fail e).drawCount = s.drawCount := rfl
@[simp] theorem State.fail_port (e : ErrCode) : (s.fail e).port = s.port := rfl

@[simp] theorem State.writeTx_hData (k : Nat) (v : Codeword) : (s.writeTx k v).hData = s.hData := rfl
@[simp] theorem State.writeTx_nWords (k : Nat) (v : Codeword) : (s.writeTx k v).nWords = s.nWords := rfl
@[simp] theorem State.writeTx_res (k : Nat) (v : Codeword) : (s.writeTx k v).res = s.res := rfl
@[simp] theorem State.writeTx_stat (k : Nat) (v : Codeword) : (s.writeTx k v).stat = s.stat := rfl
@[simp] theorem State.writeTx_tx (k : Nat) (v : Codeword) : (s.writeTx k v).tx = Memory.write s.tx k v := rfl
@[simp] theorem State.writeTx_rx (k : Nat) (v : Codeword) : (s.writeTx k v).rx = s.rx := rfl
@[simp] theorem State.writeTx_log (k : Nat) (v : Codeword) : (s.writeTx k v).log = s.log := rfl
@[simp] theorem State.writeTx_draws (k : Nat) (v : Codeword) : (s.writeTx k v).draws = s.draws := rfl
@[simp] theorem State.writeTx_drawCount (k : Nat) (v : Codeword) : (s.writeTx k v).drawCount = s.drawCount := rfl
@[simp] theorem State.writeTx_port (k : Nat) (v : Codeword) : (s.writeTx k v).port = s.port := rfl

@[simp] theorem State.advanceRng_hData : (s.advanceRng).hData = s.hData := rfl
@[simp] theorem State.advanceRng_nWords : (s.advanceRng).nWords = s.nWords := rfl
@[simp] theorem State.advanceRng_res : (s.advanceRng).res = s.res := rfl
@[simp] theorem State.advanceRng_stat : (s.advanceRng).stat = s.stat := rfl
@[simp] theorem State.advanceRng_tx : (s.advanceRng).tx = s.tx := rfl
@[simp] theorem State.advanceRng_rx : (s.advanceRng).rx = s.rx := rfl
@[simp] theorem State.advanceRng_log : (s.advanceRng).log = s.log := rfl
@[simp] theorem State.advanceRng_draws : (s.advanceRng).draws = s.draws.tail := rfl
@[simp] theorem State.advanceRng_drawCount : (s.advanceRng).drawCount = s.drawCount + 1 := rfl
@[simp] theorem State.advanceRng_port : (s.advanceRng).port = s.port := rfl

@[simp] theorem State.resetEvent_hData : (s.resetEvent).hData = s.hData := rfl
@[simp] theorem State.resetEvent_nWords : (s.resetEvent).nWords = s.nWords := rfl
@[simp] theorem State.resetEvent_res : (s.resetEvent).res = 0 := rfl
@[simp] theorem State.resetEvent_stat : (s.resetEvent).stat = Stat.afterReset s.hData := rfl
@[simp] theorem State.resetEvent_tx : (s.resetEvent).tx = [] := rfl
@[simp] theorem State.resetEvent_rx : (s.resetEvent).rx = [] := rfl
@[simp] theorem State.resetEvent_log : (s.resetEvent).log = [] := rfl
@[simp] theorem State.resetEvent_draws : (s.resetEvent).draws = s.draws := rfl
@[simp] theorem State.resetEvent_drawCount : (s.resetEvent).drawCount = s.drawCount := rfl
@[simp] theorem State.resetEvent_port : (s.resetEvent).port = s.port := rfl

@[simp] theorem State.offer_hData (w : Word) : (s.offer w).hData = s.hData := rfl
@[simp] theorem State.offer_nWords (w : Word) : (s.offer w).nWords = s.nWords := rfl
@[simp] theorem State.offer_res (w : Word) : (s.offer w).res = s.res := rfl
@[simp] theorem State.offer_stat (w : Word) : (s.offer w).stat = s.stat := rfl
@[simp] theorem State.offer_tx (w : Word) : (s.offer w).tx = s.tx := rfl
@[simp] theorem State.offer_rx (w : Word) : (s.offer w).rx = s.rx := rfl
@[simp] theorem State.offer_log (w : Word) : (s.offer w).log = s.log := rfl
@[simp] theorem State.offer_draws (w : Word) : (s.offer w).draws = s.draws := rfl
@[simp] theorem State.offer_drawCount (w : Word) : (s.offer w).drawCount = s.drawCount := rfl
@[simp] theorem State.offer_port (w : Word) : (s.offer w).port = .command w :: s.port := rfl

@[simp] theorem State.powerUp_hData (h : HData) (n : Nat) : (State.powerUp h n).hData = h := rfl
@[simp] theorem State.powerUp_nWords (h : HData) (n : Nat) : (State.powerUp h n).nWords = n := rfl
@[simp] theorem State.powerUp_res (h : HData) (n : Nat) : (State.powerUp h n).res = 0 := rfl
@[simp] theorem State.powerUp_stat (h : HData) (n : Nat) : (State.powerUp h n).stat = Stat.afterReset h := rfl
@[simp] theorem State.powerUp_tx (h : HData) (n : Nat) : (State.powerUp h n).tx = [] := rfl
@[simp] theorem State.powerUp_rx (h : HData) (n : Nat) : (State.powerUp h n).rx = [] := rfl
@[simp] theorem State.powerUp_log (h : HData) (n : Nat) : (State.powerUp h n).log = [] := rfl
@[simp] theorem State.powerUp_draws (h : HData) (n : Nat) : (State.powerUp h n).draws = [] := rfl
@[simp] theorem State.powerUp_drawCount (h : HData) (n : Nat) : (State.powerUp h n).drawCount = 0 := rfl
@[simp] theorem State.powerUp_port (h : HData) (n : Nat) : (State.powerUp h n).port = [] := rfl

@[simp] theorem State.respond_ok (r : Word) : s.respond (.ok r) = s.succeed r := rfl
@[simp] theorem State.respond_error (e : ErrCode) : s.respond (.error e) = s.fail e := rfl

@[simp] theorem State.txw_eq (k : Nat) : s.txw k = Memory.written s.tx k := rfl
@[simp] theorem State.rxw_eq (k : Nat) : s.rxw k = Memory.written s.rx k := rfl

end Sys2Proof.Machine
end

