-- ==== Sys2Proof/Laws/Ops.lean ====
section
/-!
SUPPORT. What each shared operation can do: the operand checks, reading a buffer word, the draw.
-/

namespace Sys2Proof.Machine

variable {s : State}

theorem columnOperand_cases (k : Nat) :
    (∃ h : k < 16, columnOperand k = .ok ⟨k, h⟩) ∨ 16 ≤ k ∧ columnOperand k = .error .indexRange := by
  by_cases h : k < 16
  · exact .inl ⟨h, by simp [columnOperand, h]⟩
  · exact .inr ⟨by omega, by simp [columnOperand, h]⟩

theorem rowOperand_cases (k : Nat) :
    (∃ h : k < 8, rowOperand k = .ok ⟨k, h⟩) ∨ 8 ≤ k ∧ rowOperand k = .error .indexRange := by
  by_cases h : k < 8
  · exact .inl ⟨h, by simp [rowOperand, h]⟩
  · exact .inr ⟨by omega, by simp [rowOperand, h]⟩

theorem wordOperand_cases (s : State) (k : Nat) :
    k < s.nWords ∧ wordOperand s k = .ok k ∨ s.nWords ≤ k ∧ wordOperand s k = .error .indexRange := by
  by_cases h : k < s.nWords
  · exact .inl ⟨h, by simp [wordOperand, h]⟩
  · exact .inr ⟨by omega, by simp [wordOperand, h]⟩

theorem logOperand_cases (s : State) (e : Nat) :
    e < s.stat.logcnt.toNat ∧ logOperand s e = .ok e ∨
      s.stat.logcnt.toNat ≤ e ∧ logOperand s e = .error .indexRange := by
  by_cases h : e < s.stat.logcnt.toNat
  · exact .inl ⟨h, by simp [logOperand, h]⟩
  · exact .inr ⟨by omega, by simp [logOperand, h]⟩

theorem codePointOperand_cases (v : Nat) :
    v ≤ 0xFF ∧ codePointOperand v = .ok (BitVec.ofNat 8 v) ∨ 0xFF < v ∧ codePointOperand v = .error .invalidInput := by
  by_cases h : v ≤ 0xFF
  · exact .inl ⟨h, by simp [codePointOperand, h]⟩
  · exact .inr ⟨by omega, by simp [codePointOperand, h]⟩

theorem batchOperands_cases (s : State) (l n : Nat) :
    l ≤ s.nWords ∧ n ≤ 16 * l ∧ batchOperands s l n = .ok (l, n) ∨
      s.nWords < l ∧ batchOperands s l n = .error .indexRange ∨
      l ≤ s.nWords ∧ 16 * l < n ∧ batchOperands s l n = .error .capacity := by
  by_cases hl : l ≤ s.nWords
  · by_cases hn : n ≤ 16 * l
    · exact .inl ⟨hl, hn, by simp [batchOperands, hl, hn]⟩
    · exact .inr (.inr ⟨hl, by omega, by simp [batchOperands, hl, hn]⟩)
  · exact .inr (.inl ⟨by omega, by simp [batchOperands, hl]⟩)

theorem matrixValid_cases (s : State) :
    s.stat.mok = true ∧ matrixValid s = .ok () ∨ s.stat.mok = false ∧ matrixValid s = .error .matrixInvalid := by
  cases h : s.stat.mok <;> simp [matrixValid, h]

/-- A buffer read answers the word, or faults exactly when it is unwritten. -/
theorem readThen_cases (s : State) (b : Memory) (k : Nat) (f : Codeword → Word) :
    (∃ v, b.read? k = some v ∧ readThen s b k f = .next (s.succeed (f v))) ∨
      b.read? k = none ∧ readThen s b k f = .fault .unwrittenRead := by
  cases h : b.read? k <;> simp [readThen, h]

/-- The draw is the one supplied from outside, when R161 admits it, or a free one. -/
theorem State.draw_cases (s : State) (n m : Nat) :
    (∃ q qs, s.draws = q :: qs ∧ ValidDraw q n m ∧ s.draw n m = q) ∨ s.draw n m = freeDraw s.drawCount n m := by
  cases h : s.draws with
  | nil => exact .inr (by simp [State.draw, h])
  | cons q qs =>
    by_cases hq : ValidDraw q n m
    · exact .inl ⟨q, qs, rfl, hq, by simp only [State.draw, h]; exact if_pos hq⟩
    · exact .inr (by simp only [State.draw, h]; exact if_neg hq)

end Sys2Proof.Machine
end

