-- ==== Sys2Proof/Laws/Exec.lean ====
section
/-!
SUPPORT. What a command and a step can do, said once: one inversion lemma for exec and one for step.
-/

namespace Sys2Proof.Machine

/-- Everything a command that answers a next state can have done: fail, answer a result, write a TX word and answer, refresh
MOK and answer, or inject. -/
theorem exec_cases {i : Instr} {s t : State} (h : exec i s = .next t) :
    (∃ e, t = s.fail e) ∨ (∃ r, t = s.succeed r) ∨
    (∃ k v r, ((∃ x, i = .encw k x) ∨ i = .wrtx k v) ∧ k < s.nWords ∧ t = (s.writeTx k v).succeed r) ∨
    (∃ r, i = .chk ∧ t = ({ s with stat := s.stat.setMok (selfcheck s.hData).ok } : State).succeed r) ∨
    (∃ l n cs, i = .inj l n ∧ l ≤ s.nWords ∧ n ≤ 16 * l ∧ Memory.readFrom s.tx 0 l = some cs ∧
      t = inject (s.draw n (16 * l)) n cs s) := by
  cases i with
  | nop => cases h; exact .inr (.inl ⟨_, rfl⟩)
  | enc v =>
    cases h
    rcases codePointOperand_cases v with ⟨-, hv⟩ | ⟨-, hv⟩ <;> simp only [hv]
    · exact .inr (.inl ⟨_, rfl⟩)
    · exact .inl ⟨_, rfl⟩
  | syn c => cases h; exact .inr (.inl ⟨_, rfl⟩)
  | dec c =>
    cases h
    rcases matrixValid_cases s with ⟨-, hv⟩ | ⟨-, hv⟩ <;> simp only [hv]
    · exact .inr (.inl ⟨_, rfl⟩)
    · exact .inl ⟨_, rfl⟩
  | col k =>
    cases h
    rcases columnOperand_cases k with ⟨_, hv⟩ | ⟨-, hv⟩ <;> simp only [hv]
    · exact .inr (.inl ⟨_, rfl⟩)
    · exact .inl ⟨_, rfl⟩
  | row k =>
    cases h
    rcases rowOperand_cases k with ⟨_, hv⟩ | ⟨-, hv⟩ <;> simp only [hv]
    · exact .inr (.inl ⟨_, rfl⟩)
    · exact .inl ⟨_, rfl⟩
  | encw k v =>
    cases h
    rcases wordOperand_cases s k with ⟨hk, hw⟩ | ⟨-, hw⟩ <;> simp only [hw]
    · rcases codePointOperand_cases v with ⟨-, hv⟩ | ⟨-, hv⟩ <;> simp only [hv]
      · exact .inr (.inr (.inl ⟨k, _, _, .inl ⟨v, rfl⟩, hk, rfl⟩))
      · exact .inl ⟨_, rfl⟩
    · exact .inl ⟨_, rfl⟩
  | wrtx k c =>
    cases h
    rcases wordOperand_cases s k with ⟨hk, hw⟩ | ⟨-, hw⟩ <;> simp only [hw]
    · exact .inr (.inr (.inl ⟨k, _, _, .inr rfl, hk, rfl⟩))
    · exact .inl ⟨_, rfl⟩
  | rdtx k =>
    simp only [exec, execRdtx] at h
    rcases wordOperand_cases s k with ⟨-, hw⟩ | ⟨-, hw⟩ <;> simp only [hw] at h
    · rcases readThen_cases s s.tx k zext32 with ⟨v, -, hr⟩ | ⟨-, hr⟩ <;> rw [hr] at h <;> cases h
      exact .inr (.inl ⟨_, rfl⟩)
    · cases h; exact .inl ⟨_, rfl⟩
  | rdrx k =>
    simp only [exec, execRdrx] at h
    rcases wordOperand_cases s k with ⟨-, hw⟩ | ⟨-, hw⟩ <;> simp only [hw] at h
    · rcases readThen_cases s s.rx k zext32 with ⟨v, -, hr⟩ | ⟨-, hr⟩ <;> rw [hr] at h <;> cases h
      exact .inr (.inl ⟨_, rfl⟩)
    · cases h; exact .inl ⟨_, rfl⟩
  | inj l n =>
    simp only [exec, execInj] at h
    rcases batchOperands_cases s l n with ⟨hl, hn, hb⟩ | ⟨-, hb⟩ | ⟨-, -, hb⟩ <;> simp only [hb] at h
    · cases hr : Memory.readFrom s.tx 0 l with
      | none => simp only [hr] at h; cases h
      | some cs =>
        simp only [hr] at h
        cases h
        exact .inr (.inr (.inr (.inr ⟨l, n, cs, rfl, hl, hn, hr, rfl⟩)))
    · cases h; exact .inl ⟨_, rfl⟩
    · cases h; exact .inl ⟨_, rfl⟩
  | decw k =>
    simp only [exec, execDecw] at h
    rcases wordOperand_cases s k with ⟨-, hw⟩ | ⟨-, hw⟩ <;> simp only [hw] at h
    · rcases matrixValid_cases s with ⟨-, hm⟩ | ⟨-, hm⟩ <;> simp only [hm] at h
      · rcases readThen_cases s s.rx k (decres s.hData) with ⟨v, -, hr⟩ | ⟨-, hr⟩ <;> rw [hr] at h <;> cases h
        exact .inr (.inl ⟨_, rfl⟩)
      · cases h; exact .inl ⟨_, rfl⟩
    · cases h; exact .inl ⟨_, rfl⟩
  | logrd e =>
    cases h
    rcases logOperand_cases s e with ⟨-, hv⟩ | ⟨-, hv⟩ <;> simp only [hv]
    · exact .inr (.inl ⟨_, rfl⟩)
    · exact .inl ⟨_, rfl⟩
  | chk => cases h; exact .inr (.inr (.inr (.inl ⟨_, rfl, rfl⟩)))
  | reservedE x => cases h; exact .inl ⟨_, rfl⟩
  | reservedF x => cases h; exact .inl ⟨_, rfl⟩

/-- A word answers as the command it decodes to, or with ILLEGAL_CMD. -/
theorem runWord_cases (w : Word) (s : State) :
    (∃ i, decode w = .ok i ∧ runWord w s = exec i s) ∨ runWord w s = .next (s.fail .illegalCmd) := by
  unfold runWord
  cases h : decode w with
  | ok i => exact .inl ⟨i, rfl, rfl⟩
  | error e => cases e; exact .inr rfl

/-- Everything a step that answers a next state can have done: nothing when the port is empty, a reset, a command, or the
error response to an illegal word. -/
theorem step_cases {s t : State} (h : step s = .next t) :
    s.port = [] ∧ t = s ∨
    (∃ rest, (s.port = .reset :: rest ∨ ∃ w, s.port = .resetDuring w :: rest) ∧
      t = ({ s with port := rest } : State).resetEvent) ∨
    (∃ w rest i, s.port = .command w :: rest ∧ decode w = .ok i ∧ exec i { s with port := rest } = .next t) ∨
    (∃ w rest, s.port = .command w :: rest ∧ t = ({ s with port := rest } : State).fail .illegalCmd) := by
  unfold step serve at h
  cases hp : s.port with
  | nil => simp only [hp] at h; cases h; exact .inl ⟨rfl, rfl⟩
  | cons e rest =>
    simp only [hp] at h
    cases e with
    | command w =>
      rcases runWord_cases w { s with port := rest } with ⟨i, hd, hr⟩ | hr
      · exact .inr (.inr (.inl ⟨w, rest, i, rfl, hd, hr ▸ h⟩))
      · exact .inr (.inr (.inr ⟨w, rest, rfl, by
          have h' : runWord w { s with port := rest } = .next t := h
          rw [hr] at h'; cases h'; rfl⟩))
    | reset => cases h; exact .inr (.inl ⟨rest, .inl rfl, rfl⟩)
    | resetDuring w => cases h; exact .inr (.inl ⟨rest, .inr ⟨w, rfl⟩, rfl⟩)

end Sys2Proof.Machine
end

