-- ==== Sys2Proof/Machine/Assembler.lean ====
section
/-!
DEFINITION. The assembler of one line (30_encoding.md R97; log entry 13): a mnemonic, then its operands separated by commas.
There are no pseudo-instructions (R98). A reserved opcode has no mnemonic.
-/

namespace Sys2Proof.Machine

/-! ## Tokens -/

inductive Token where
  /-- a mnemonic or a number: the characters between separators -/
  | word (cs : List Char)
  /-- a quoted character -/
  | quoted (c : Char)
  | comma
  deriving DecidableEq, Repr

/-- Put the characters read so far in front, as a word, if there are any. -/
def pushWord (cs : List Char) (ts : List Token) : List Token :=
  match cs with
  | [] => ts
  | c :: cs => .word (c :: cs) :: ts

/-- The tokens of a line. A comment starts with ; and runs to its end (R97). DESIGN CHOICE, log entry 13: a blank or a tab ends a
word and is otherwise skipped; a quoted character and a comma end a word too, so no blank is needed beside them (ENC'A' is
read as ENC 'A'); a quoted ; or , or blank is that character. -/
def tokens (sofar : List Char) : List Char → List Token
  | [] => pushWord sofar []
  | '\'' :: c :: '\'' :: rest => pushWord sofar (.quoted c :: tokens [] rest)
  | ';' :: _ => pushWord sofar []
  | ',' :: rest => pushWord sofar (.comma :: tokens [] rest)
  | ' ' :: rest => pushWord sofar (tokens [] rest)
  | '\t' :: rest => pushWord sofar (tokens [] rest)
  | c :: rest => tokens (sofar ++ [c]) rest

/-! ## Numbers: decimal, hexadecimal 0x, binary 0b written most significant bit first -/

/-- The digits in ascending order of value, each as it may be written: the letters of a hexadecimal number stand in either
case (log entry 13). -/
def digitSymbols : List (Char × Char) := "0123456789ABCDEF".toList.zip "0123456789abcdef".toList

/-- The value of a digit of this base: its place among the first `base` symbols. -/
def digitValue (base : Nat) (c : Char) : Option Nat :=
  (digitSymbols.take base).findIdx? fun p => decide (c = p.1) || decide (c = p.2)

/-- The value of these digits after those already read. -/
def digitsValue (base sofar : Nat) : List Char → Option Nat
  | [] => some sofar
  | c :: cs => (digitValue base c).bind fun d => digitsValue base (base * sofar + d) cs

/-- The value of at least one digit. -/
def digits (base : Nat) : List Char → Option Nat
  | [] => none
  | c :: cs => digitsValue base 0 (c :: cs)

/-- A number as written. -/
def numberValue : List Char → Option Nat
  | '0' :: 'x' :: ds => digits 16 ds
  | '0' :: 'b' :: ds => digits 2 ds
  | ds => digits 10 ds

/-- An operand that is a number. -/
def numberOperand : Token → Option Nat
  | .word cs => numberValue cs
  | .quoted _ => none
  | .comma => none

/-- An operand that is a code point: a number, or a quoted ASCII character. -/
def charOperand : Token → Option Nat
  | .word cs => numberValue cs
  | .quoted c => if c.toNat ≤ 127 then some c.toNat else none
  | .comma => none

/-- An operand that is a codeword: a number that fits V. -/
def codewordOperand (t : Token) : Option Codeword :=
  match numberOperand t with
  | some v => if fitsV v then some (toV v) else none
  | none => none

/-! ## Lines -/

/-- The command of a line's tokens (R97). -/
def parseCommand : List Token → Option Instr
  | [.word ['N', 'O', 'P']] => some .nop
  | [.word ['C', 'H', 'K']] => some .chk
  | [.word ['E', 'N', 'C'], v] => (charOperand v).map .enc
  | [.word ['S', 'Y', 'N'], c] => (codewordOperand c).map .syn
  | [.word ['D', 'E', 'C'], c] => (codewordOperand c).map .dec
  | [.word ['C', 'O', 'L'], i] => (numberOperand i).map .col
  | [.word ['R', 'O', 'W'], j] => (numberOperand j).map .row
  | [.word ['R', 'D', 'T', 'X'], k] => (numberOperand k).map .rdtx
  | [.word ['R', 'D', 'R', 'X'], k] => (numberOperand k).map .rdrx
  | [.word ['D', 'E', 'C', 'W'], k] => (numberOperand k).map .decw
  | [.word ['L', 'O', 'G', 'R', 'D'], e] => (numberOperand e).map .logrd
  | [.word ['E', 'N', 'C', 'W'], k, .comma, v] =>
    (numberOperand k).bind fun k => (charOperand v).map fun v => .encw k v
  | [.word ['W', 'R', 'T', 'X'], k, .comma, c] =>
    (numberOperand k).bind fun k => (codewordOperand c).map fun c => .wrtx k c
  | [.word ['I', 'N', 'J'], l, .comma, n] =>
    (numberOperand l).bind fun l => (numberOperand n).map fun n => .inj l n
  | _ => none

/-- The assembler refuses a line that is no command, or whose operand does not fit its field (R97). -/
inductive AsmError where
  | notACommand
  | doesNotFit
  deriving DecidableEq, Repr

/-- The word of a command whose operands fit their fields, unchanged (R97). -/
def assemble (i : Instr) : Except AsmError Word :=
  if i.wellFormed then .ok (encode i) else .error .doesNotFit

/-- The word of a line, none for a line with nothing but a comment. -/
def assembleLine (line : List Char) : Except AsmError (Option Word) :=
  match tokens [] line with
  | [] => .ok none
  | t :: ts =>
    match parseCommand (t :: ts) with
    | some i => (assemble i).map some
    | none => .error .notACommand

end Sys2Proof.Machine
end

