-- ==== Sys2Proof/Machine/HostProgram.lean ====
section
/-!
DEFINITION. The Message Pipeline as a program of the host (44_buffer_and_control.md R214 to R216). It is no unit of the block and
no command (00_scope.md R2, R98): it only sends commands, one at a time, and reads their responses. Conversion between
characters and code points stays outside (00_scope.md R5).
-/

namespace Sys2Proof.Machine

/-- The error of an operand that fits no field, by the cause of R230 that it meets for every N_WORDS of R7: a K above 4095 is no
index and no batch length, a V above 65535 is no code point, more flips than any batch has bits, or no log index. None
when every operand fits. Several errors are taken in the order of R232. -/
def unfit? : Instr → Option ErrCode
  | .nop => none
  | .enc v => if fitsV v then none else some .invalidInput
  | .syn _ => none
  | .dec _ => none
  | .col k => if fitsK k then none else some .indexRange
  | .row k => if fitsK k then none else some .indexRange
  | .encw k v => if fitsK k then if fitsV v then none else some .invalidInput else some .indexRange
  | .wrtx k _ => if fitsK k then none else some .indexRange
  | .rdtx k => if fitsK k then none else some .indexRange
  | .rdrx k => if fitsK k then none else some .indexRange
  | .inj l n => if fitsK l then if fitsV n then none else some .capacity else some .indexRange
  | .decw k => if fitsK k then none else some .indexRange
  | .logrd e => if fitsV e then none else some .indexRange
  | .chk => none
  | .reservedE _ => none
  | .reservedF _ => none

/-- Send the word of a command whose operands fit, and wait for its response (R264). -/
def send (i : Instr) (s : State) : Host.Outcome State Fault Refusal := step (s.offer (encode i))

/-- What the pipeline hands back: the text's code points, or the typed failure of a command (R216). -/
inductive PipelineResult where
  | text (ys : List DataWord)
  | failure (code : BitVec 3)
  deriving DecidableEq, Repr

/-- Send the commands in order, keep RES[7:0] of each response, and stop at the first failure. A command with an operand that
does not fit its field has no word (R97): it is not sent, no operand is cut short (R214), and the host hands back the typed
failure itself (log entry 16). -/
def sendAll : List Instr → State → Host.Outcome (PipelineResult × State) Fault Refusal
  | [], s => .next (.text [], s)
  | i :: is, s =>
    match unfit? i with
    | some e => .next (.failure e.code, s)
    | none =>
      match send i s with
      | .fault f => .fault f
      | .refused r => .refused r
      | .next t =>
        if t.stat.err then .next (.failure t.stat.ecode, t)
        else match sendAll is t with
          | .next (.text ys, u) => .next (.text (t.res.extractLsb' 0 8 :: ys), u)
          | o => o

/-- "encode (4.2), collect into a batch", then "Corrupt the whole batch once via 4.3", then the optional log reads (R216). -/
def batchCommands (xs : List Nat) (n : Nat) : List Instr :=
  (xs.mapIdx fun k x => .encw k x) ++ .inj xs.length n :: (List.range n).map .logrd

/-- "Repair every codeword independently via 4.4", in the original order (R216). -/
def repairCommands (l : Nat) : List Instr := (List.range l).map .decw

/-- process(text, error_count) on the code points xs, for a message of at most N_WORDS code points (R216). The raw bit vector
variant is a message of length 1 (R215). -/
def process (xs : List Nat) (n : Nat) (s : State) : Host.Outcome (PipelineResult × State) Fault Refusal :=
  match sendAll (batchCommands xs n) s with
  | .next (.text _, t) => sendAll (repairCommands xs.length) t
  | o => o

/-- A longer message: chunks of at most N_WORDS code points, each with its own INJ and its own error count (R216). -/
def processChunks : List (List Nat × Nat) → State → Host.Outcome (PipelineResult × State) Fault Refusal
  | [], s => .next (.text [], s)
  | (xs, n) :: rest, s =>
    match process xs n s with
    | .next (.text ys, t) =>
      match processChunks rest t with
      | .next (.text zs, u) => .next (.text (ys ++ zs), u)
      | o => o
    | o => o

end Sys2Proof.Machine
end

