-- ==== Sys2Proof/Laws/HostProgram.lean ====
section
/-!
SUPPORT. What the host's program does with one command: it sends it, or hands back the typed failure of an operand that fits no
field (44_buffer_and_control.md R214, R216).
-/

namespace Sys2Proof.Machine

/-- The host sends exactly the well-formed commands. -/
theorem unfit?_eq_none {i : Instr} : unfit? i = none ↔ i.wellFormed = true := by
  cases i <;> simp only [unfit?, Instr.wellFormed, Bool.and_eq_true] <;> (try split) <;> (try split) <;> simp_all

/-- The failure handed back is one whose cause R230 applies to the operand, in every state of a machine in the range of R7. -/
theorem unfit?_causes {i : Instr} {e : ErrCode} {s : State} (hn : s.nWords ≤ 4095) (h : unfit? i = some e) :
    Causes i s e := by
  have hc : s.stat.logcnt.toNat < 65536 := s.stat.logcnt.isLt
  cases i <;> simp only [unfit?, fitsK, fitsV, decide_eq_true_eq] at h <;> (repeat split at h) <;> cases h <;>
    simp only [Causes, IndexOut, InputOut] <;> first | omega | exact ⟨_, _, rfl, by omega⟩

/-- A command whose word decodes to it is run as itself, with the port as it was. -/
theorem send_eq_exec {i : Instr} (s : State) (h : decode (encode i) = .ok i) : send i s = exec i s := by
  change runWord (encode i) s = exec i s
  simp only [runWord, h]

/-- An operand that fits no field ends the program with a typed failure, before its command is sent. -/
theorem sendAll_unfit {i : Instr} {e : ErrCode} (is : List Instr) (s : State) (h : unfit? i = some e) :
    sendAll (i :: is) s = .next (.failure e.code, s) := by
  simp only [sendAll, h]

end Sys2Proof.Machine
end

