-- ==== Sys2Proof/Laws/PerInstr.lean ====
section
/-!
SUPPORT. Per-instruction lemmas: the word of a command stands in the command's row of the opcode map (30_encoding.md R92).
-/

namespace Sys2Proof.Laws.EncodeMatchesRow

/-- The row of the command selects the command's word. A reserved opcode has no row; its word carries its opcode. -/
def Statement (i : Instr) : Prop :=
  match i.row? with
  | some r => r.selects (encode i) = true
  | none => opField (encode i) = 0xE ∨ opField (encode i) = 0xF

/-- K must be zero, V is free. -/
theorem selects_zeroK {op : BitVec 4} {v : BitVec 16} (r : OpcodeRow)
    (hm : r.mask = 0xFFFF0000) (hp : r.pattern = formatC op 0 0) : r.selects (formatC op 0 v) = true :=
  (selects_formatC (k' := 0xFFF) (v' := 0) r hm hp).2 ⟨rfl, BitVec.zero_and, BitVec.and_zero⟩

/-- K is free, V must be zero. -/
theorem selects_zeroV {op : BitVec 4} {k : BitVec 12} (r : OpcodeRow)
    (hm : r.mask = 0xF000FFFF) (hp : r.pattern = formatC op 0 0) : r.selects (formatC op k 0) = true :=
  (selects_formatC (k' := 0) (v' := 0xFFFF) r hm hp).2 ⟨rfl, BitVec.and_zero, BitVec.zero_and⟩

/-- K and V are free. -/
theorem selects_free {op : BitVec 4} {k : BitVec 12} {v : BitVec 16} (r : OpcodeRow)
    (hm : r.mask = 0xF0000000) (hp : r.pattern = formatC op 0 0) : r.selects (formatC op k v) = true :=
  (selects_formatC (k' := 0) (v' := 0) r hm hp).2 ⟨rfl, BitVec.and_zero, BitVec.and_zero⟩

theorem nop : Statement .nop := show rowNop.selects (encode .nop) = true by decide
theorem enc (v : Nat) : Statement (.enc v) := selects_zeroK _ rfl rfl
theorem syn (c : Codeword) : Statement (.syn c) := selects_zeroK _ rfl rfl
theorem dec (c : Codeword) : Statement (.dec c) := selects_zeroK _ rfl rfl
theorem col (i : Nat) : Statement (.col i) := selects_zeroV _ rfl rfl
theorem row (j : Nat) : Statement (.row j) := selects_zeroV _ rfl rfl
theorem encw (k v : Nat) : Statement (.encw k v) := selects_free _ rfl rfl
theorem wrtx (k : Nat) (c : Codeword) : Statement (.wrtx k c) := selects_free _ rfl rfl
theorem rdtx (k : Nat) : Statement (.rdtx k) := selects_zeroV _ rfl rfl
theorem rdrx (k : Nat) : Statement (.rdrx k) := selects_zeroV _ rfl rfl
theorem inj (l n : Nat) : Statement (.inj l n) := selects_free _ rfl rfl
theorem decw (k : Nat) : Statement (.decw k) := selects_zeroV _ rfl rfl
theorem logrd (e : Nat) : Statement (.logrd e) := selects_zeroK _ rfl rfl
theorem chk : Statement .chk := show rowChk.selects (encode .chk) = true by decide
theorem reservedE (x : BitVec 28) : Statement (.reservedE x) := .inl (by
  simp only [opField, encode]; exact BitVec.extractLsb'_append_eq_left)
theorem reservedF (x : BitVec 28) : Statement (.reservedF x) := .inr (by
  simp only [opField, encode]; exact BitVec.extractLsb'_append_eq_left)

end Sys2Proof.Laws.EncodeMatchesRow
end

