-- ==== Sys2Proof/Tests/Slice0.lean ====
section
/-!
SUPPORT. Tests by evaluation. Expected results are those of the spec: the encodings of 30_encoding.md, the vectors of
95_test_vectors.md (named V <section>), the examples in the rules. The second half shows, for every statement with a
hypothesis, a concrete case that meets it, at the ends of its ranges.
-/

namespace Sys2Proof.Tests

open Sys2Proof Sys2Proof.Machine

/-! ## Small machines -/

/-- H_EX (R126) and the three matrices of 95_test_vectors.md section 0. -/
def hEx : HData := #v[0x17, 0x8B, 0xC5, 0xE2, 0x71, 0xB8, 0x5C, 0x2E]
def hWeak : HData := #v[0x97, 0x8B, 0x45, 0x62, 0x71, 0x38, 0x5C, 0x2E]
def hDup : HData := #v[0x97, 0x0B, 0x45, 0x62, 0x71, 0x38, 0x5C, 0x2E]
def hZero : HData := #v[0x17, 0x0B, 0x45, 0x62, 0x71, 0x38, 0x5C, 0x2E]

/-- After reset, with N_WORDS = 8 as in every vector, and MOK as V 2.1.3 gives it (test_powerUp below). -/
def machine (h : HData) (mok : Bool) : State :=
  { State.powerUp h 8 with stat := { err := false, ecode := 0, serr := false, mok := mok, logcnt := 0 } }
def ex : State := machine hEx true
def weak : State := machine hWeak true
def dup : State := machine hDup false
def zero : State := machine hZero false

/-- These words in TX, and this draw next. -/
def withTx (tx : Memory) (q : List Nat) : State := { ex with tx := tx, draws := [q] }

/-- The state of V 2.3.1 after row 4, with LOG, RX and LOGCNT as that row gives them. -/
def logged : State :=
  { ex with
    tx := [(0, 0x41D2), (1, 0x487D)]
    rx := [(0, 0x51D2), (1, 0x087F)]
    log := [(0, 0x0011), (1, 0x0003), (2, 0x001E)]
    stat := { ex.stat with logcnt := 3 } }

/-- The response (RES, STAT) to a word, none when the step stops. -/
def answer (s : State) (w : Word) : Option (Word × Word) :=
  match step (s.offer w) with
  | .next t => some t.response
  | .fault _ => none
  | .refused _ => none

/-- RES of an outcome. -/
def resOf : Host.Outcome State Fault Refusal → Option Word
  | .next t => some t.res
  | .fault _ => none
  | .refused _ => none

/-- The word stops the step with the model fault. -/
def faults (s : State) (w : Word) : Bool :=
  match step (s.offer w) with
  | .fault .unwrittenRead => true
  | .next _ => false
  | .refused _ => false

/-- TX, RX and LOG after a word. -/
def buffers (s : State) (w : Word) : Option (Memory × Memory × Memory) :=
  match step (s.offer w) with
  | .next t => some (t.tx, t.rx, t.log)
  | .fault _ => none
  | .refused _ => none

/-! ## WellFormed: one ill-formed term for each check -/

theorem test_illformed_enc : (Instr.enc 65536).wellFormed = false := by decide
theorem test_illformed_col : (Instr.col 4096).wellFormed = false := by decide
theorem test_illformed_row : (Instr.row 4096).wellFormed = false := by decide
theorem test_illformed_encw :
    (Instr.encw 4096 0).wellFormed = false ∧ (Instr.encw 0 65536).wellFormed = false := by decide
theorem test_illformed_wrtx : (Instr.wrtx 4096 0).wellFormed = false := by decide
theorem test_illformed_rdtx : (Instr.rdtx 4096).wellFormed = false := by decide
theorem test_illformed_rdrx : (Instr.rdrx 4096).wellFormed = false := by decide
theorem test_illformed_inj :
    (Instr.inj 4096 0).wellFormed = false ∧ (Instr.inj 0 65536).wellFormed = false := by decide
theorem test_illformed_decw : (Instr.decw 4096).wellFormed = false := by decide
theorem test_illformed_logrd : (Instr.logrd 65536).wellFormed = false := by decide

/-! ## Decode: one word for each constructor, written out as OP, K, V (R90, R92) -/

theorem test_decode_nop : decode (0b0000#4 ++ 0b000000000000#12 ++ 0b0000000000000000#16) = .ok .nop := by decide
theorem test_decode_enc : decode (0b0001#4 ++ 0b000000000000#12 ++ 0b0000000001000001#16) = .ok (.enc 65) := by decide
theorem test_decode_syn :
    decode (0b0010#4 ++ 0b000000000000#12 ++ 0b0101000111010010#16) = .ok (.syn 0x51D2) := by decide
theorem test_decode_dec :
    decode (0b0011#4 ++ 0b000000000000#12 ++ 0b0101000111010010#16) = .ok (.dec 0x51D2) := by decide
theorem test_decode_col : decode (0b0100#4 ++ 0b000000001111#12 ++ 0b0000000000000000#16) = .ok (.col 15) := by decide
theorem test_decode_row : decode (0b0101#4 ++ 0b000000000111#12 ++ 0b0000000000000000#16) = .ok (.row 7) := by decide
theorem test_decode_encw :
    decode (0b0110#4 ++ 0b000000000111#12 ++ 0b0000000001001000#16) = .ok (.encw 7 0x48) := by decide
theorem test_decode_wrtx :
    decode (0b0111#4 ++ 0b000000000010#12 ++ 0b0100000111010010#16) = .ok (.wrtx 2 0x41D2) := by decide
theorem test_decode_rdtx : decode (0b1000#4 ++ 0b100000000001#12 ++ 0b0000000000000000#16) = .ok (.rdtx 2049) := by decide
theorem test_decode_rdrx : decode (0b1001#4 ++ 0b000000000011#12 ++ 0b0000000000000000#16) = .ok (.rdrx 3) := by decide
theorem test_decode_inj :
    decode (0b1010#4 ++ 0b000000000011#12 ++ 0b0000000000110000#16) = .ok (.inj 3 48) := by decide
theorem test_decode_decw : decode (0b1011#4 ++ 0b000000000001#12 ++ 0b0000000000000000#16) = .ok (.decw 1) := by decide
theorem test_decode_logrd :
    decode (0b1100#4 ++ 0b000000000000#12 ++ 0b1000000000000010#16) = .ok (.logrd 32770) := by decide
theorem test_decode_chk : decode (0b1101#4 ++ 0b000000000000#12 ++ 0b0000000000000000#16) = .ok .chk := by decide
theorem test_decode_reservedE :
    decode (0b1110#4 ++ 0b000000000001#12 ++ 0b0000000000000010#16) = .ok (.reservedE 0x0010002) := by decide
theorem test_decode_reservedF :
    decode (0b1111#4 ++ 0b111111111111#12 ++ 0b1111111111111111#16) = .ok (.reservedF 0xFFFFFFF) := by decide

/-- V 2.1, 2.2.1, 2.5, 2.6: every must-be-zero field. -/
theorem test_decode_mustBeZero : ([0x00000001, 0x00010000, 0x10010041, 0x20010000, 0x300141D2, 0x40000001, 0x50000080,
    0x80030001, 0x90000001, 0xB0000001, 0xC0010005, 0xD0000001, 0xD0010000] : List Word).all
      (fun w => decide (decode w = .error .mustBeZero)) = true := by decide

/-- The table's numbering, and step right after reset. -/
theorem test_tableWord : decodeTableWord 32 0x400F0000 = some (.col 15) ∧ decodeTableWord 32 1 = none := by decide
theorem test_reset_runs_col : resOf (step (State.reset.withFetchWord 32 0x400F0000)) = some 1 := by decide

/-! ## Assembler (R97) and the words of 30_encoding.md section 6 -/

theorem test_assemble_enc : assembleLine "ENC 'A'  ; the letter A".toList = .ok (some 0x10000041) := by decide
theorem test_assemble_encw : assembleLine "ENCW 0, 'A'".toList = .ok (some 0x60000041) := by decide
theorem test_assemble_inj : assembleLine "INJ 1, 1".toList = .ok (some 0xA0010001) := by decide
theorem test_assemble_decw : assembleLine "DECW 0".toList = .ok (some 0xB0000000) := by decide
theorem test_assemble_col : assembleLine "COL 15".toList = .ok (some 0x400F0000) := by decide
theorem test_assemble_logrd : assembleLine "LOGRD 0".toList = .ok (some 0xC0000000) := by decide
theorem test_assemble_chk : assembleLine "CHK".toList = .ok (some 0xD0000000) := by decide
/-- Log entry 13, the model's choice: no blank beside a quoted character or a comma; a quoted semicolon is a character; an
unpaired quote is no command. -/
theorem test_assemble_separators : assembleLine "ENC'A'".toList = .ok (some 0x10000041) ∧
    assembleLine " ENCW\t0,'A'; 'A'".toList = .ok (some 0x60000041) ∧
    assembleLine "ENC ';'".toList = .ok (some 0x1000003B) ∧ assembleLine "ENC 'A".toList = .error .notACommand ∧
    assembleLine "COL 0015".toList = .ok (some 0x400F0000) := by decide
/-- P6: the same byte in binary. -/
theorem test_assemble_binary : assembleLine "ENCW 0, 0b01000001".toList = .ok (some 0x60000041) := by decide
theorem test_assemble_hexadecimal : assembleLine "WRTX 3, 0xBEEF".toList = .ok (some 0x7003BEEF) := by decide
/-- The digits of each base, in either case, and one that is none (R97). -/
theorem test_digits : numberValue "0xaF".toList = some 0xAF ∧ numberValue "65".toList = some 65 ∧
    numberValue "0b102".toList = none ∧ numberValue "6A".toList = none ∧ numberValue "0x".toList = none := by decide
/-- An operand out of range reaches the block; one that does not fit its field is refused (R97). -/
theorem test_assemble_fits : assembleLine "COL 4095".toList = .ok (some 0x4FFF0000) ∧
    assembleLine "COL 4096".toList = .error .doesNotFit ∧ assembleLine "ENC 65536".toList = .error .doesNotFit := by decide

/-! ## Codec table -/

/-- V 2.1.1: column 3 of H_EX, and the first index past the end. -/
theorem test_col : answer ex 0x40030000 = some (0x8E, 0x20) ∧ answer ex 0x40100000 = some (0, 0x35) := by decide
/-- V 2.1.1: the columns 0 and 8 of H_DUP. -/
theorem test_col_dup : answer dup 0x40000000 = some (0x80, 0) ∧ answer dup 0x40080000 = some (0x80, 0) := by decide
/-- V 2.1.2: row 2 of H_EX, and 8, which is a column index but no row index. -/
theorem test_row : answer ex 0x50020000 = some (0xC520, 0x20) ∧ answer ex 0x50080000 = some (0, 0x35) := by decide
/-- V 2.1.3: a valid matrix and one with equal columns. -/
theorem test_chk : answer ex 0xD0000000 = some (0x0001, 0x20) ∧ answer dup 0xD0000000 = some (0x8004, 0) := by decide
/-- V 2.1.3: the check does not see pair sums; a zero column. -/
theorem test_chk_weak_zero : answer weak 0xD0000000 = some (0x0001, 0x20) ∧ answer zero 0xD0000000 = some (0x0002, 0) := by
  decide

/-! ## Encoder -/

/-- V 2.2.1: the document's example, and the first code point that is refused. -/
theorem test_enc : answer ex 0x10000041 = some (0x41D2, 0x20) ∧ answer ex 0x10000100 = some (0, 0x37) := by decide
theorem test_enc_ends : answer ex 0x10000080 = some (0x8074, 0x20) ∧ answer ex 0x100000FF = some (0xFF00, 0x20) := by decide
/-- V 2.2.3 rows 2, 4 and 5. -/
theorem test_encw : answer ex 0x60070048 = some (0x487D, 0x20) ∧ answer ex 0x600801FF = some (0, 0x35) ∧
    answer ex 0x600101FF = some (0, 0x37) := by decide
/-- V 2.2.3 row 6: a word is overwritten, the other stays. -/
theorem test_encw_tx : buffers (withTx [(0, 0x41D2), (7, 0x487D)] []) 0x60000069 =
    some ([(0, 0x6988), (7, 0x487D)], [], []) := by decide

/-! ## Noise injector -/

/-- V 2.3 row 6: flips in two words, RX[2] kept. -/
theorem test_inj : buffers { withTx [(0, 0x41D2), (1, 0x487D), (2, 0)] [21, 2] with rx := [(0, 0x51D2), (1, 0x487D), (2, 0)] }
    0xA0020002 = some ([(0, 0x41D2), (1, 0x487D), (2, 0)], [(0, 0x61D2), (1, 0x4C7D), (2, 0)], [(0, 0x15), (1, 2)]) := by
  decide
/-- V 2.3 row 7 and V 2.6: the answer of a success, INDEX_RANGE before CAPACITY, CAPACITY before the model fault. -/
theorem test_inj_answers : answer (withTx [(0, 0x41D2)] [15, 0, 7]) 0xA0010003 = some (3, 0x00030020) ∧
    answer ex 0xA00900C8 = some (0, 0x35) ∧ answer ex 0xA0010011 = some (0, 0x39) := by decide
/-- V 2.3.1 rows 5 and 8. -/
theorem test_logrd : answer logged 0xC0000000 = some (0x11, 0x00030020) ∧
    answer logged 0xC0000003 = some (0, 0x00030035) := by decide

/-! ## Syndrome decoder -/

/-- V 2.4.1 and V 2.4.4: also when the matrix is invalid. -/
theorem test_syn : answer ex 0x200051D2 = some (0x8E, 0x20) ∧ answer dup 0x2000C1D2 = some (0x80, 0) := by decide +kernel
/-- V 2.4.1: one flip, two flips. -/
theorem test_dec : answer ex 0x300051D2 = some (0x01038E41, 0x20) ∧ answer ex 0x3000C1D3 = some (0x02F07541, 0x20) := by
  decide +kernel
/-- V 2.4.1: three flips give up; V 2.4.3: the column scan wins; V 2.4.4: an invalid matrix. -/
theorem test_dec_corners : answer ex 0x3000A1D2 = some (0x030053A1, 0x20) ∧
    answer weak 0x30004112 = some (0x0100C0C1, 0x20) ∧ answer dup 0x300041D2 = some (0, 0x1B) := by decide +kernel
/-- V 2.5 row 14, from a machine whose RX[3] is 0xBEEF. -/
theorem test_decw : answer { ex with rx := [(3, 0xBEEF)] } 0xB0030000 = some (0x02A23D9E, 0x20) := by decide +kernel
/-- V 2.6: INDEX_RANGE, MATRIX_INVALID, then the model fault (V 2.8). -/
theorem test_decw_order : answer dup 0xB0090000 = some (0, 0x15) ∧ answer dup 0xB0000000 = some (0, 0x1B) ∧
    faults ex 0xB0010000 = true := by decide +kernel

/-! ## Buffer access and control -/

/-- V 2.5 row 17: NOP clears ERR and keeps SERR. -/
theorem test_nop : answer { ex with stat := { ex.stat with err := true, ecode := 2, serr := true } } 0x00000000 =
    some (0, 0x30) := by decide
/-- V 2.5 rows 1 and 5. -/
theorem test_wrtx : answer ex 0x7003BEEF = some (0xBEEF, 0x20) ∧ answer ex 0x70080001 = some (0, 0x35) := by decide
/-- V 2.5 row 15: RX is not written. -/
theorem test_wrtx_tx : buffers logged 0x700041D3 =
    some ([(0, 0x41D3), (1, 0x487D)], logged.rx, logged.log) := by decide
/-- P1 (RDTX 0 after INJ), V 2.5 row 3, V 2.8. -/
theorem test_rdtx : answer logged 0x80000000 = some (0x41D2, 0x00030020) ∧ answer ex 0x80080000 = some (0, 0x35) ∧
    faults ex 0x80000000 = true := by decide
/-- P1 (RDRX 0 after INJ), V 2.5 row 4, V 2.8. -/
theorem test_rdrx : answer logged 0x90000000 = some (0x51D2, 0x00030020) ∧ answer ex 0x90080000 = some (0, 0x35) ∧
    faults { ex with tx := [(3, 0xBEEF)] } 0x90030000 = true := by decide
/-- V 2.8: INJ with n = 0 reads all its words. -/
theorem test_inj_unwritten : faults (withTx [(0, 0), (1, 0), (2, 0)] []) 0xA0040000 = true := by decide
/-- V 2.6: the reserved opcodes. -/
theorem test_reserved : answer ex 0xE0000000 = some (0, 0x33) ∧ answer ex 0xFFFFFFFF = some (0, 0x33) := by decide

/-! ## The port and reset (V 2.7) -/

/-- V 2.1.3, the column "STAT after reset". -/
theorem test_powerUp : (State.powerUp hEx 8).stat.toWord = 0x20 ∧ (State.powerUp hDup 8).stat.toWord = 0 := by
  decide +kernel
theorem test_powerUp_ex : State.powerUp hEx 8 = ex := by decide +kernel

/-- The second row's end state of P2 goes back to reset. -/
theorem test_reset : step { logged with port := [.reset] } = .next (State.powerUp hEx 8) := rfl
/-- A reset during a command: no response, the reset state (R262). -/
theorem test_reset_during : step { logged with port := [.resetDuring 0x60000041] } = .next (State.powerUp hEx 8) := rfl
theorem test_idle : step logged = .next logged := rfl

/-! ## The host program (R216) -/

/-- What the host program hands back, with the last response. -/
def processed (xs : List Nat) (n : Nat) (s : State) : Option (PipelineResult × Word × Word) :=
  match process xs n s with
  | .next (r, t) => some (r, t.response)
  | .fault _ => none
  | .refused _ => none

/-- P1: process("A", 1) with the draw (3) answers "A". -/
theorem test_process : processed [0x41] 1 { ex with draws := [[3]] } =
    some (.text [0x41], 0x01038E41, 0x00010020) := by decide +kernel
/-- R214, R216: an operand that fits no field is a typed failure, never cut short: the code point 0x10041 (INVALID_INPUT, 3, with
nothing sent), and 65536 errors (CAPACITY, 4, after ENCW 0, 'A'). -/
theorem test_process_refuses : processed [0x10041] 0 ex = some (.failure 3, 0, 0x20) ∧
    processed [0x41] 65536 ex = some (.failure 4, 0x41D2, 0x20) := by decide +kernel
/-- R216, P3: a count above the capacity that fits its field is the block's own CAPACITY. -/
theorem test_process_capacity : processed [0x41] 17 ex = some (.failure 4, 0, 0x39) := by decide +kernel

/-! # Witnesses: for each statement, cases that meet its hypotheses together, at the ends of each clause's range -/

/-! ## Encoding -/

theorem witness_DecodeUndoesEncode :
    (Instr.inj 4095 65535).wellFormed = true ∧ (Instr.logrd 65535).wellFormed = true ∧
      (Instr.reservedF 0xFFFFFFF).wellFormed = true := by decide
theorem witness_EncodeUndoesDecode : decode 0x60070048 = .ok (.encw 7 0x48) := by decide
/-- Opcode 0xE, opcode 0xF, a word its row selects, a word its row does not select. -/
theorem witness_EveryWordIsOneCommandOrIllegal :
    (ex.offer 0xE0000000).port = .command 0xE0000000 :: [] ∧ opField 0xE0000000 = 0xE ∧ opField 0xF0000000 = 0xF ∧
      opField 0x400F0000 ≠ 0xE ∧ opField 0x400F0000 ≠ 0xF ∧
      rowCol ∈ opcodeRows ∧ rowCol.op = opField 0x400F0000 ∧ 0x400F0000#32 &&& rowCol.mask = rowCol.pattern ∧
      rowCol.op = opField 0x400F0001 ∧ 0x400F0001#32 &&& rowCol.mask ≠ rowCol.pattern := by decide
theorem witness_OperandsAreTheFieldsOfTheWord :
    rowNop.selects 0x00000000 = true ∧ rowEnc.selects 0x1000FFFF = true ∧ rowSyn.selects 0x2000FFFF = true ∧
      rowDec.selects 0x3000FFFF = true ∧ rowCol.selects 0x4FFF0000 = true ∧ rowRow.selects 0x5FFF0000 = true ∧
      rowEncw.selects 0x6FFFFFFF = true ∧ rowWrtx.selects 0x7FFFFFFF = true ∧ rowRdtx.selects 0x8FFF0000 = true ∧
      rowRdrx.selects 0x9FFF0000 = true ∧ rowInj.selects 0xAFFFFFFF = true ∧ rowDecw.selects 0xBFFF0000 = true ∧
      rowLogrd.selects 0xC000FFFF = true ∧ rowChk.selects 0xD0000000 = true := by decide
/-- K = 1 and K = 4095 where K must be zero, V = 1 and V = 65535 where V must be. -/
theorem witness_MustBeZeroFieldsMakeWordsIllegal :
    (ex.offer 0x00010000).port = .command 0x00010000 :: [] ∧
      opField 0x00010000 ∈ [0x0#4, 0x1#4, 0x2#4, 0x3#4, 0xC#4, 0xD#4] ∧ kField 0x00010000 ≠ 0 ∧
      opField 0xDFFF0000 ∈ [0x0#4, 0x1#4, 0x2#4, 0x3#4, 0xC#4, 0xD#4] ∧ kField 0xDFFF0000 ≠ 0 ∧
      opField 0x40000001 ∈ [0x0#4, 0x4#4, 0x5#4, 0x8#4, 0x9#4, 0xB#4, 0xD#4] ∧ vField 0x40000001 ≠ 0 ∧
      opField 0xB000FFFF ∈ [0x0#4, 0x4#4, 0x5#4, 0x8#4, 0x9#4, 0xB#4, 0xD#4] ∧ vField 0xB000FFFF ≠ 0 := by decide
theorem witness_ReservedOpcodesAreIllegal :
    (ex.offer 0xEABC1234).port = .command 0xEABC1234 :: [] ∧ opField 0xEABC1234 = 0xE ∧ opField 0xFFFFFFFF = 0xF ∧
      opcodeRows.all (fun r => !r.selects 0x40000001) = true ∧ opcodeRows.any (fun r => r.selects 0x40000000) = true := by
  decide

/-! ## The port and reset -/

theorem witness_StepRunsTheDecodedCommand :
    (ex.offer 0x60070048).port = .command 0x60070048 :: [] ∧ decode 0x60070048 = .ok (.encw 7 0x48) := by decide
theorem witness_IdleBlockKeepsItsState : logged.port = [] := rfl
theorem witness_ResetLeavesTheResetState : ({ logged with port := [.reset] } : State).port = .reset :: [] := rfl
theorem witness_ResetDuringACommandAbortsIt :
    ({ logged with port := [.resetDuring 0x60000041] } : State).port = .resetDuring 0x60000041 :: [] := rfl

/-! ## RES, STAT and errors -/

/-- A success and a failure. -/
theorem witness_EveryCommandWritesErrAndEcode :
    (∃ t, step (ex.offer 0x00000000) = .next t ∧ t.stat.err = false) ∧
      ∃ t, step (ex.offer 0x00000001) = .next t ∧ t.stat.err = true := ⟨⟨_, rfl, rfl⟩, _, rfl, rfl⟩
/-- Each cause at the end of its range, and each side of the premise about written words. -/
theorem witness_OutcomesFollowTheErrorTableInOrder :
    Causes (.reservedE 0) ex .illegalCmd ∧ Causes (.col 16) ex .indexRange ∧ ¬ Causes (.col 15) ex .indexRange ∧
      Causes (.row 8) ex .indexRange ∧ Causes (.decw 8) ex .indexRange ∧ Causes (.inj 9 0) ex .indexRange ∧
      Causes (.logrd 3) logged .indexRange ∧ Causes (.enc 256) ex .invalidInput ∧
      Causes (.inj 1 17) ex .capacity ∧ Causes (.dec 0) dup .matrixInvalid ∧
      ReadsWritten logged (.rdtx 1) ∧ ¬ ReadsWritten logged (.rdtx 2) :=
  ⟨trivial, show 16 ≤ 16 by decide, show ¬ 16 ≤ 15 by decide, show 8 ≤ 8 by decide, show 8 ≤ 8 by decide,
    show 8 < 9 by decide, show 3 ≤ 3 by decide, show 0xFF < 256 by decide, ⟨1, 17, rfl, by decide⟩,
    ⟨.inl ⟨0, rfl⟩, rfl⟩, show logged.txw 1 = true by decide, show ¬ logged.txw 2 = true by decide⟩
theorem witness_AFailureChangesOnlyTheResponse :
    ∃ t, step (logged.offer 0xA0020021) = .next t ∧ t.stat.err = true := ⟨_, rfl, rfl⟩
/-- A step that clears SERR, and a failure. -/
theorem witness_OnlyResetClearsSerr :
    (∃ t, step { ex with stat := { ex.stat with serr := true }, port := [.reset] } = .next t ∧ t.stat.serr = false) ∧
      ∃ t, step (ex.offer 0xE0000000) = .next t ∧ t.stat.err = true := ⟨⟨_, rfl, rfl⟩, _, rfl, rfl⟩
theorem witness_OnlyChkWritesMok :
    (∃ t, exec .chk ex = .next t) ∧ ∃ t, exec (.syn 0) ex = .next t := ⟨⟨_, rfl⟩, _, rfl⟩
/-- N_WORDS at its end; INJ that raises LOGCNT; INJ that fails. -/
theorem witness_OnlyASuccessfulInjSetsLogcnt :
    (∃ t, ({ withTx [(0, 0)] [9, 4] with nWords := 4095 } : State).nWords ≤ 4095 ∧
      exec (.inj 1 2) { withTx [(0, 0)] [9, 4] with nWords := 4095 } = .next t ∧ t.stat.logcnt ≠ 0 ∧ t.stat.err = false) ∧
      ∃ t, exec (.inj 9 0) ex = .next t ∧ t.stat.err = true := by
  refine ⟨⟨_, by decide, rfl, by decide, rfl⟩, _, rfl, rfl⟩

/-! ## Whole-machine frames -/

theorem witness_OnlyEncwAndWrtxWriteTx :
    (∃ t, exec (.inj 1 1) (withTx [(0, 0)] [15]) = .next t) ∧ (∃ t, exec (.encw 7 255) logged = .next t) ∧
      ∃ t, exec (.wrtx 7 0) logged = .next t := ⟨⟨_, rfl⟩, ⟨_, rfl⟩, _, rfl⟩
theorem witness_OnlyInjWritesRxLogAndRng : ∃ t, exec (.wrtx 7 0) logged = .next t := ⟨_, rfl⟩
theorem witness_NothingChangesHOrNWords :
    (∃ t, step (logged.offer 0x60070048) = .next t) ∧ ∃ t, exec (.wrtx 7 0) logged = .next t := ⟨⟨_, rfl⟩, _, rfl⟩
/-- A success and a failure of a command that only reads. -/
theorem witness_ReadingCommandsRepeat :
    ReadOnly (.rdrx 1) ∧ (∃ t, exec (.rdrx 1) logged = .next t) ∧ ∃ t, exec (.rdrx 8) logged = .next t :=
  ⟨trivial, ⟨_, rfl⟩, _, rfl⟩
theorem witness_TransmitWritesAreIdempotent :
    (∃ t, exec (.encw 7 255) ex = .next t) ∧ ∃ t, exec (.wrtx 7 0xFFFF) ex = .next t := ⟨⟨_, rfl⟩, _, rfl⟩

/-! ## Codec table -/

theorem witness_ColumnsAndRowsHoldTheEntriesOfH :
    (15 : Fin 16).val = 8 + (7 : Fin 8).val ∧ (8 : Fin 16).val = 8 + (0 : Fin 8).val := by decide
/-- The columns of H_EX (R126). -/
def colsEx : Vector (BitVec 8) 16 :=
  #v[0x74, 0x3A, 0x1D, 0x8E, 0x47, 0xA3, 0xD1, 0xE8, 0x80, 0x40, 0x20, 0x10, 0x08, 0x04, 0x02, 0x01]
theorem test_columns : ∀ i : Fin 16, col hEx i = colsEx[i] := by decide +kernel
/-- H_ZERO has the zero column 0, H_DUP the equal columns 0 and 8 (V 2.1.3), H_EX neither. -/
theorem witness_SelfCheckRecordSaysWhatIsWrong :
    col hZero 0 = 0 ∧ (0 < (8 : Fin 16) ∧ col hDup 0 = col hDup 8) ∧ (∀ i, col hEx i ≠ 0) ∧
      ∀ i j, i < j → col hEx i ≠ col hEx j := by
  simp only [test_columns]
  decide +kernel
/-- No pair comes before (0, 8) in H_DUP. -/
theorem witness_SelfCheckRecordSaysWhatIsWrong_first :
    ∀ i' j' : Fin 16, i' < j' → (i' < 0 ∨ i' = 0 ∧ j' < 8) → col hDup i' ≠ col hDup j' := by decide +kernel

/-! ## Encoder -/

theorem witness_EncodingIsLinearAndInjective : enc hEx 0x41 = enc hEx 0x41 ∧ (1 : DataWord) ≠ 0 := ⟨rfl, by decide⟩
theorem witness_EncAnswersTheCodeword : 0 ≤ 255 ∧ 255 ≤ 255 ∧ 255 < 256 ∧ 255 < 65535 := by decide
/-- k = N_WORDS - 1 and v = 255; k = N_WORDS; v = 256. -/
theorem witness_EncwWritesTheCodewordToTx :
    7 < ex.nWords ∧ 255 ≤ 255 ∧ ex.nWords ≤ 8 ∧ 0 < ex.nWords ∧ 255 < 256 ∧ Memory.wf ex.tx := by decide

/-! ## Syndrome decoder -/

theorem witness_SyndromeFormsAgree : syn hEx 0x41D2 = 0 ∧ 0x41D2#16 = enc hEx (dataOf 0x41D2) := by decide +kernel
/-- V 2.4.1: a codeword, the first and the last position, the first and the last pair, no match. -/
theorem witness_DecodeIsTheFirstMatchOfTheScan :
    syn hEx 0x41D2 = 0 ∧
      (syn hEx 0xC1D2 = col hEx 0 ∧ syn hEx 0xC1D2 ≠ 0) ∧
      (syn hEx 0x41D3 = col hEx 15 ∧ ∀ i' : Fin 16, i' < 15 → syn hEx 0x41D3 ≠ col hEx i') ∧
      (syn hEx 0x81D2 = col hEx 0 ^^^ col hEx 1 ∧ ∀ m, syn hEx 0x81D2 ≠ col hEx m) ∧
      ((∀ m, syn hEx 0xA1D2 ≠ col hEx m) ∧
        ∀ i j : Fin 16, i < j → syn hEx 0xA1D2 ≠ col hEx i ^^^ col hEx j) := by
  have h : syn hEx 0x41D2 = 0x00 ∧ syn hEx 0xC1D2 = 0x74 ∧ syn hEx 0x41D3 = 0x01 ∧ syn hEx 0x81D2 = 0x4E ∧
      syn hEx 0xA1D2 = 0x53 := by decide +kernel
  simp only [h, test_columns]
  decide +kernel
/-- The pair (14, 15) of V 2.4.1 is the first with its sum in H_EX. -/
theorem witness_DecodeIsTheFirstMatchOfTheScan_last :
    ∀ i' j' : Fin 16, i' < j' → (i' < 14 ∨ i' = 14 ∧ j' < 15) → col hEx 14 ^^^ col hEx 15 ≠ col hEx i' ^^^ col hEx j' := by
  simp only [test_columns]
  decide +kernel
/-- V 2.4.1: CLASS 1 and CLASS 2. -/
theorem witness_DecodeResultHasItsFields :
    (decres hEx 0x41D3).extractLsb' 24 2 = 1 ∧ (decres hEx 0x4052).extractLsb' 24 2 = 2 := by decide +kernel
theorem witness_DecAnswersTheDecodeResult : ex.stat.mok = true ∧ dup.stat.mok = false := ⟨rfl, rfl⟩
/-- k = N_WORDS - 1 with its word written; k = N_WORDS; MOK = 0; an unwritten word. -/
theorem witness_DecwAnswersTheDecodeResultOfRx :
    (7 < ex.nWords ∧ ({ ex with rx := [(7, 0xFFFF)] } : State).rx.read? 7 = some 0xFFFF) ∧ ex.stat.mok = true ∧
      ex.nWords ≤ 8 ∧ (7 < dup.nWords ∧ dup.stat.mok = false) ∧ ex.rx.read? 7 = none := by decide
/-- V 2.4.1: position 15, and the pair (14, 15); position 8 is the least. -/
theorem witness_ParityFlipsNeverChangeTheData :
    8 ≤ (8 : Fin 16).val ∧ 8 ≤ (14 : Fin 16).val ∧ 8 ≤ (15 : Fin 16).val ∧
      (decodeWord hEx 0x41D3).cls = .singleBitError 15 ∧ (decodeWord hEx 0x41D1).cls = .doubleBitError 14 15 := by
  decide +kernel
/-- H_EX meets the condition of R190 (R126), H_DUP does not. -/
theorem witness_SingleErrorsAreCorrectedIffColumnsDistinct : ColumnsDistinct hEx ∧ ¬ ColumnsDistinct hDup := by
  refine ⟨?_, fun h => absurd (h.2 0 8 (by decide +kernel)) (by decide)⟩
  unfold ColumnsDistinct
  simp only [test_columns]
  decide +kernel
/-- The 120 sums of H_EX, each with its pair's place, packed into one number. -/
def sumTable : Nat :=
  pairs.foldl (fun a p => a ||| (16 * p.1.val + p.2.val) <<< (8 * (colsEx[p.1] ^^^ colsEx[p.2]).toNat)) 0
theorem sumTable_finds : ∀ i j : Fin 16, i < j →
    (sumTable >>> (8 * (colsEx[i] ^^^ colsEx[j]).toNat)) % 256 = 16 * i.val + j.val := by decide +kernel
theorem sums_are_no_columns : ∀ i j : Fin 16, i < j → ∀ m : Fin 16, colsEx[i] ^^^ colsEx[j] ≠ colsEx[m] := by
  decide +kernel
/-- H_EX meets the condition of R191 (R126), H_WEAK does not (V 2.4.3). -/
theorem witness_DoubleErrorsAreCorrectedIffPairSumsDistinct :
    ColumnsDistinct hEx ∧ PairSumsDistinct hEx ∧ ¬ PairSumsDistinct hWeak := by
  refine ⟨witness_SingleErrorsAreCorrectedIffColumnsDistinct.1, ?_, fun h => h.1 8 9 0 (by decide) (by decide +kernel)⟩
  unfold PairSumsDistinct
  simp only [test_columns]
  refine ⟨fun i j m h => sums_are_no_columns i j h m, fun i j i' j' h h' e => ?_⟩
  have a := sumTable_finds i j h
  rw [e, sumTable_finds i' j' h'] at a
  omega
/-- Two states that differ in another word of RX and in the log. -/
theorem witness_DecodingDependsOnTheWordAndHAlone :
    logged.rx.read? 0 = ({ ex with rx := [(0, 0x51D2)] } : State).rx.read? 0 ∧ ∃ t, exec (.decw 0) logged = .next t :=
  ⟨by decide, _, rfl⟩

/-! ## Noise injector -/

theorem witness_DrawsAreDistinctAndInRange : 0 ≤ 0 ∧ 16 ≤ 16 := by decide
theorem witness_EveryDrawIsPossible : [15, 0, 7].length = 3 ∧ [15, 0, 7].Nodup ∧ ∀ p ∈ [15, 0, 7], p < 16 := by decide
/-- A whole buffer with every bit of it flipped; the empty batch. -/
theorem witness_InjCorruptsTheBatch :
    (ex.nWords ≤ 4095 ∧ 0 ≤ ex.nWords ∧ 0 ≤ 16 * 0 ∧ ∀ k, k < 0 → ex.txw k = true) ∧
      8 ≤ ex.nWords ∧ 128 ≤ 16 * 8 ∧
      ∀ k, k < 8 → (withTx ((List.range 8).map fun k => (k, 0)) []).txw k = true := by decide
theorem witness_FlipMaskHasTheDrawnPositions : [21, 2].Nodup := by decide
/-- n = 0, and n = 16 for one word. -/
theorem witness_NoFlipsCopyAndAllFlipsInvert :
    (∃ t, exec (.inj 1 0) (withTx [(0, 0x41D2)] []) = .next t ∧ t.stat.err = false) ∧
      ∃ t, exec (.inj 1 (16 * 1)) (withTx [(0, 0x41D2)] (List.range 16)) = .next t ∧ t.stat.err = false :=
  ⟨⟨_, rfl, rfl⟩, _, rfl, rfl⟩
theorem witness_InjFlipsExactlyTheLoggedBits :
    (withTx [(0, 0x41D2), (1, 0x487D)] [17, 3, 30]).nWords ≤ 4095 ∧
      ∃ t, exec (.inj 2 3) (withTx [(0, 0x41D2), (1, 0x487D)] [17, 3, 30]) = .next t ∧ t.stat.err = false :=
  ⟨by decide, _, rfl, rfl⟩
/-- e = LOGCNT - 1 with its entry written, and e = LOGCNT. -/
theorem witness_LogrdAnswersTheEntry :
    2 < logged.stat.logcnt.toNat ∧ logged.log.read? 2 = some 0x001E ∧ logged.stat.logcnt.toNat ≤ 3 := by decide

/-! ## Buffer access and the invariant -/

theorem witness_WrtxWritesTheWordToTx : 7 < ex.nWords ∧ Memory.wf ex.tx ∧ ex.nWords ≤ 8 := by decide
/-- A written and an unwritten word at the last index, and the first index past the end. -/
theorem witness_RdtxAndRdrxAnswerTheWord :
    (7 < ex.nWords ∧ ({ ex with tx := [(7, 1)] } : State).tx.read? 7 = some 1 ∧
      ({ ex with rx := [(7, 1)] } : State).rx.read? 7 = some 1) ∧ ex.nWords ≤ 8 ∧
      ex.txw 7 = false ∧ ex.rxw 7 = false := by decide
theorem witness_ResetMeetsTheInvariant : 1 ≤ 1 ∧ 1 ≤ 4095 ∧ 4095 ≤ 4095 := by decide
/-- The state of V 2.3.1 row 4 meets the invariant, and steps. -/
theorem witness_EveryStepKeepsTheInvariant :
    Inv (logged.offer 0x60070048) ∧ ∃ t, step (logged.offer 0x60070048) = .next t :=
  ⟨{ nWords_range := by decide
     tx_canonical := by decide
     rx_canonical := by decide
     log_canonical := by decide
     tx_size := by decide
     rx_size := by decide
     log_size := by decide
     rx_from_tx := fun
       | 0, _ => rfl
       | 1, _ => rfl
       | _ + 2, h => nomatch h
     logcnt_range := by decide
     log_entries := fun
       | 0, _ => ⟨_, rfl, by decide⟩
       | 1, _ => ⟨_, rfl, by decide⟩
       | 2, _ => ⟨_, rfl, by decide⟩
       | _ + 3, h => absurd h (by change ¬ _ < 3; omega)
     log_distinct := fun e e' v (h : e < 3) (h' : e' < 3) a b => by
       interval_cases e <;> interval_cases e' <;> first | rfl | exact absurd (a.trans b.symm) (by decide)
     ecode_legal := by decide
     err_ecode := by decide
     err_serr := by decide
     mok_selfcheck := by decide +kernel }, _, rfl⟩

end Sys2Proof.Tests
end

/-! # The state, what a command leaves alone, and the invariant -/

namespace Sys2Proof.Machine

/-! ## Positions of the parts of a codeword, and of one-hot bytes -/

theorem atPosition_eq_getLsbD {w : Nat} (v : BitVec w) (i : Fin w) : atPosition v i = v.getLsbD (w - 1 - i.val) := by
  simp [atPosition, BitVec.getMsbD]

/-- Position i of the data word is position i of the codeword (R72). -/
@[simp] theorem atPosition_dataOf (c : Codeword) (i : Fin 8) : atPosition (dataOf c) i = atPosition c ⟨i.val, by omega⟩ := by
  have hi : 8 - 1 - i.val < 8 := by omega
  rw [atPosition_eq_getLsbD, atPosition_eq_getLsbD, dataOf, BitVec.getLsbD_extractLsb', decide_eq_true hi, Bool.true_and]
  congr 1
  simp only
  omega

/-- Position j of the parity bits is position 8 + j of the codeword (R72). -/
@[simp] theorem atPosition_parityOf (c : Codeword) (j : Fin 8) :
    atPosition (parityOf c) j = atPosition c ⟨8 + j.val, by omega⟩ := by
  have hj : 8 - 1 - j.val < 8 := by omega
  rw [atPosition_eq_getLsbD, atPosition_eq_getLsbD, parityOf, BitVec.getLsbD_extractLsb', decide_eq_true hj, Bool.true_and]
  congr 1
  simp only
  omega

@[simp] theorem atPosition_onehot8 : ∀ m j : Fin 8, atPosition (onehot8 m) j = decide (m = j) := by decide

/-! ## Entries of H on its buses -/

@[simp] theorem atPosition_col (h : HData) (i : Fin 16) (j : Fin 8) : atPosition (col h i) j = entry h j i :=
  atPosition_ofPositions _ j

@[simp] theorem atPosition_row (h : HData) (j : Fin 8) (i : Fin 16) : atPosition (row h j) i = entry h j i :=
  atPosition_ofPositions _ i

/-- The columns of the parity block are the one-hot bytes (R120). -/
theorem col_parity (h : HData) (m : Fin 8) (i : Fin 16) (hi : i.val = 8 + m.val) : col h i = onehot8 m :=
  eq_of_atPosition fun j => by rw [atPosition_col, atPosition_onehot8, entry_parity h j m i hi]

/-- The parity half of a row is the row of the identity (R121). -/
theorem parityOf_row (h : HData) (j : Fin 8) : parityOf (row h j) = onehot8 j :=
  eq_of_atPosition fun m => by
    rw [atPosition_parityOf, atPosition_row, entry_parity h j m _ rfl, atPosition_onehot8, decide_eq_decide]
    exact eq_comm

/-- The data half of a row is the row of H_DATA (R121). -/
theorem dataOf_row (h : HData) (j : Fin 8) : dataOf (row h j) = h[j] :=
  eq_of_atPosition fun i => by rw [atPosition_dataOf, atPosition_row, entry_data h j _ i.isLt]

/-! ## The STAT word (R36) -/

/-- Bit b of the STAT word. -/
theorem Stat.getLsbD_toWord (t : Stat) (b : Nat) :
    t.toWord.getLsbD b =
      if b = 0 then t.err else if b < 4 then t.ecode.getLsbD (b - 1) else if b = 4 then t.serr
      else if b = 5 then t.mok else if b < 16 then false else t.logcnt.getLsbD (b - 16) := by
  have h : t.toWord.getLsbD b = ((t.logcnt ++ 0#10) ++
    ((BitVec.ofBool t.mok ++ BitVec.ofBool t.serr) ++ (t.ecode ++ BitVec.ofBool t.err)) :
      BitVec (16 + 10 + (1 + 1 + (3 + 1)))).getLsbD b := rfl
  rw [h]
  simp only [BitVec.getLsbD_append, BitVec.getLsbD_ofBool, BitVec.getLsbD_zero]
  by_cases hb : b < 16
  · interval_cases b <;> simp
  · have hlow : ¬ b < 1 + 1 + (3 + 1) := by omega
    have hzero : ¬ b - (1 + 1 + (3 + 1)) < 10 := by omega
    have h4 : ¬ b < 4 := by omega
    have hrest : b ≠ 0 ∧ b ≠ 4 ∧ b ≠ 5 := by omega
    simp only [hb, hlow, hzero, h4, hrest, if_false, show b - (1 + 1 + (3 + 1)) - 10 = b - 16 by omega]

theorem Stat.toWord_afterReset (h : HData) : (Stat.afterReset h).toWord = if (selfcheck h).ok then 0x20 else 0 := by
  unfold Stat.afterReset
  cases (selfcheck h).ok <;> rfl

/-! ## Error codes (R230) -/

theorem ErrCode.code_cases (e : ErrCode) : e.code = 1 ∨ e.code = 2 ∨ e.code = 3 ∨ e.code = 4 ∨ e.code = 5 := by
  cases e <;> decide

theorem ErrCode.code_ne_zero (e : ErrCode) : e.code ≠ 0 := by
  cases e <;> decide

theorem ErrCode.code_le_five (e : ErrCode) : e.code.toNat ≤ 5 := by
  cases e <;> decide

/-! ## What a successful INJ leaves in each field (R160) -/

section Inject

variable (q : List Nat) (n : Nat) (cs : List Codeword) (s : State)

@[simp] theorem inject_hData : (inject q n cs s).hData = s.hData := rfl
@[simp] theorem inject_nWords : (inject q n cs s).nWords = s.nWords := rfl
@[simp] theorem inject_stat : (inject q n cs s).stat = (s.stat.setLogcnt n).succeed := rfl
@[simp] theorem inject_tx : (inject q n cs s).tx = s.tx := rfl
@[simp] theorem inject_rx : (inject q n cs s).rx = s.rx.writeFrom 0 (corrupt q 0 cs) := rfl
@[simp] theorem inject_log : (inject q n cs s).log = s.log.writeFrom 0 (q.map logWord) := rfl
@[simp] theorem inject_port : (inject q n cs s).port = s.port := rfl

@[simp] theorem length_corrupt (k : Nat) : (corrupt q k cs).length = cs.length := by
  induction cs generalizing k with
  | nil => rfl
  | cons c cs ih => simp [corrupt, ih]

/-- After an INJ the log entries below the length of its draw are the drawn positions (R164). -/
theorem read?_inject_log {e : Nat} (he : e < q.length) :
    Memory.read? (inject q n cs s).log e = some (logWord q[e]) := by
  simp [Memory.read?_writeFrom, he]

end Inject

/-- A position below 65536 is logged without loss (R164). -/
theorem toNat_logWord {p : Nat} (hp : p < 65536) : (logWord p).toNat = p := by
  rw [logWord, BitVec.toNat_ofNat, Nat.mod_eq_of_lt hp]

/-- An error count in the range of R160 fits LOGCNT, since N_WORDS is at most 4095 (R41). -/
theorem Stat.toNat_setLogcnt (t : Stat) {n : Nat} (hn : n < 65536) : (t.setLogcnt n).logcnt.toNat = n := by
  rw [Stat.setLogcnt_logcnt, BitVec.toNat_ofNat, Nat.mod_eq_of_lt hn]

/-! ## Every draw is one that R161 admits -/

/-- A shuffle-and-take from a pool without repetition takes n members of it, all different. -/
theorem takeFrom_spec (choice : Nat → Nat) {pool : List Nat} {n : Nat} (hp : pool.Nodup) (hn : n ≤ pool.length) :
    (takeFrom choice pool n).length = n ∧ (takeFrom choice pool n).Nodup ∧ ∀ p ∈ takeFrom choice pool n, p ∈ pool := by
  induction n generalizing pool with
  | zero => simp [takeFrom]
  | succ n ih =>
    cases pool with
    | nil => simp at hn
    | cons p ps =>
      have hi : choice n % (ps.length + 1) < (p :: ps).length := Nat.mod_lt _ (Nat.succ_pos _)
      have perm := List.getElem_cons_eraseIdx_perm hi
      obtain ⟨hnew, hrest⟩ := List.nodup_cons.1 (perm.nodup_iff.2 hp)
      have hlen := perm.length_eq
      obtain ⟨hl, hd, hm⟩ := ih hrest (by simp only [List.length_cons] at hlen hn; omega)
      have hsub : ∀ x ∈ takeFrom choice ((p :: ps).eraseIdx (choice n % (ps.length + 1))) n, x ∈ p :: ps :=
        fun x hx => List.mem_of_mem_eraseIdx (hm x hx)
      rw [takeFrom, ← List.getElem_eq_getD p (h := hi)]
      exact ⟨congrArg (· + 1) hl, List.nodup_cons.2 ⟨fun hx => hnew (hm _ hx), hd⟩,
        List.forall_mem_cons.2 ⟨List.getElem_mem hi, hsub⟩⟩

theorem freeDraw_valid (c : Nat) {n m : Nat} (h : n ≤ m) : ValidDraw (freeDraw c n m) n m := by
  obtain ⟨hl, hd, hm⟩ := takeFrom_spec (Config.rngChoice c) List.nodup_range (by simpa using h)
  exact ⟨hl, hd, fun p hp => List.mem_range.1 (hm p hp)⟩

theorem State.draw_valid (s : State) {n m : Nat} (h : n ≤ m) : ValidDraw (s.draw n m) n m := by
  rcases s.draw_cases n m with ⟨q, qs, -, hq, hd⟩ | hd <;> rw [hd]
  · exact hq
  · exact freeDraw_valid _ h

/-! ## How a command and a step end -/

/-- A command that answers a next state fails, or ends as a success of a state that has the old SERR. -/
theorem exec_ends {i : Instr} {s t : State} (h : exec i s = .next t) :
    (∃ e, t = s.fail e) ∨ ∃ u r, t = State.succeed u r ∧ u.stat.serr = s.stat.serr := by
  rcases exec_cases h with he | ⟨r, rfl⟩ | ⟨k, v, r, -, -, rfl⟩ | ⟨r, -, rfl⟩ | ⟨l, n, cs, -, -, -, -, rfl⟩
  · exact .inl he
  · exact .inr ⟨_, _, rfl, rfl⟩
  · exact .inr ⟨_, _, rfl, rfl⟩
  · exact .inr ⟨_, _, rfl, rfl⟩
  · exact .inr ⟨_, _, rfl, rfl⟩

/-- The same of a step that takes a command word, legal or not. -/
theorem step_command_ends {s t : State} {w : Word} {rest : List HostEvent} (hp : s.port = .command w :: rest)
    (h : step s = .next t) :
    (∃ e, t = ({ s with port := rest } : State).fail e) ∨ ∃ u r, t = State.succeed u r ∧ u.stat.serr = s.stat.serr := by
  rcases step_cases h with ⟨hn, -⟩ | ⟨_, hr | ⟨_, hr⟩, -⟩ | ⟨_, rest', i, hc, -, hx⟩ | ⟨_, rest', hc, rfl⟩
  · simp [hp] at hn
  · simp [hp] at hr
  · simp [hp] at hr
  · obtain ⟨-, rfl⟩ : _ ∧ rest = rest' := by simpa [hp] using hc
    exact exec_ends hx
  · obtain ⟨-, rfl⟩ : _ ∧ rest = rest' := by simpa [hp] using hc
    exact .inl ⟨_, rfl⟩

/-- SERR after a command word: set when it was, or when the command failed (R39). -/
theorem step_command_serr {s t : State} {w : Word} {rest : List HostEvent} (hp : s.port = .command w :: rest)
    (h : step s = .next t) : t.stat.serr = (s.stat.serr || t.stat.err) := by
  rcases step_command_ends hp h with ⟨e, rfl⟩ | ⟨u, r, rfl, hu⟩
  · simp
  · simp [hu]

/-! ## What no command changes -/

theorem exec_frame {i : Instr} {s t : State} (h : exec i s = .next t) :
    t.hData = s.hData ∧ t.nWords = s.nWords ∧ t.port = s.port := by
  rcases exec_cases h with ⟨e, rfl⟩ | ⟨r, rfl⟩ | ⟨k, v, r, -, -, rfl⟩ | ⟨r, -, rfl⟩ | ⟨l, n, cs, -, -, -, -, rfl⟩ <;>
    exact ⟨rfl, rfl, rfl⟩

/-- Only ENCW and WRTX write TX, at their operand K (R42). -/
theorem exec_tx {i : Instr} {s t : State} (h : exec i s = .next t) :
    t.tx = s.tx ∨ ∃ k v, ((∃ x, i = .encw k x) ∨ i = .wrtx k v) ∧ t.tx = Memory.write s.tx k v := by
  rcases exec_cases h with ⟨e, rfl⟩ | ⟨r, rfl⟩ | ⟨k, v, r, hi, -, rfl⟩ | ⟨r, -, rfl⟩ | ⟨l, n, cs, -, -, -, -, rfl⟩
  · exact .inl rfl
  · exact .inl rfl
  · exact .inr ⟨k, v, hi, rfl⟩
  · exact .inl rfl
  · exact .inl rfl

/-- Only an INJ that succeeds writes LOGCNT (R41). -/
theorem exec_logcnt {i : Instr} {s t : State} (h : exec i s = .next t) :
    t.stat.logcnt = s.stat.logcnt ∨ (∃ l n, i = .inj l n) ∧ t.stat.err = false := by
  rcases exec_cases h with ⟨e, rfl⟩ | ⟨r, rfl⟩ | ⟨k, v, r, -, -, rfl⟩ | ⟨r, -, rfl⟩ | ⟨l, n, cs, hi, -, -, -, rfl⟩
  · exact .inl rfl
  · exact .inl rfl
  · exact .inl rfl
  · exact .inl rfl
  · exact .inr ⟨⟨l, n, hi⟩, rfl⟩

/-- An INJ that answers a next state fails, or injects a batch that was written (R160). -/
theorem exec_inj_cases {l n : Nat} {s t : State} (h : exec (.inj l n) s = .next t) :
    (∃ e, t = s.fail e) ∨ l ≤ s.nWords ∧ n ≤ 16 * l ∧
      ∃ cs, Memory.readFrom s.tx 0 l = some cs ∧ t = inject (s.draw n (16 * l)) n cs s := by
  simp only [exec, execInj] at h
  rcases batchOperands_cases s l n with ⟨hl, hn, hb⟩ | ⟨-, hb⟩ | ⟨-, -, hb⟩ <;> simp only [hb] at h
  · cases hr : Memory.readFrom s.tx 0 l with
    | none => simp only [hr] at h; cases h
    | some cs =>
      simp only [hr] at h
      cases h
      exact .inr ⟨hl, hn, cs, rfl, rfl⟩
  · cases h; exact .inl ⟨_, rfl⟩
  · cases h; exact .inl ⟨_, rfl⟩

/-! ## Reset -/

theorem step_reset {s : State} {rest : List HostEvent} (hp : s.port = .reset :: rest) :
    step s = .next ({ s with port := rest } : State).resetEvent := by
  simp only [step, serve, hp, runEvent]

end Sys2Proof.Machine

namespace Sys2Proof

open Sys2Proof.Machine

theorem Config.nWords_range : 1 ≤ Config.nWords ∧ Config.nWords ≤ 4095 :=
  ⟨Nat.succ_pos _, Config.nWordsLessOne.isLt⟩

/-! ## Each way a step can end keeps the invariant -/

section Invariant

variable {s : State}

/-- The invariant does not speak of the events to come. -/
theorem Inv.setPort (hs : Inv s) (p : List HostEvent) : Inv { s with port := p } := { hs with }

/-- A reset needs nothing but the range of N_WORDS (R52). -/
theorem Inv.resetEvent (hn : 1 ≤ s.nWords ∧ s.nWords ≤ 4095) : Inv s.resetEvent where
  nWords_range := hn
  tx_canonical := Memory.wf_nil
  rx_canonical := Memory.wf_nil
  log_canonical := Memory.wf_nil
  tx_size := by simp
  rx_size := by simp
  log_size := by simp
  rx_from_tx := by simp
  logcnt_range := by simp [Stat.afterReset]
  log_entries := by simp [Stat.afterReset]
  log_distinct := by simp [Stat.afterReset]
  ecode_legal := by simp [Stat.afterReset]
  err_ecode := by simp [Stat.afterReset]
  err_serr := by simp [Stat.afterReset]
  mok_selfcheck := rfl

theorem Inv.fail (hs : Inv s) (e : ErrCode) : Inv (s.fail e) :=
  { hs with
    ecode_legal := e.code_le_five
    err_ecode := by simpa using e.code_ne_zero
    err_serr := fun _ => rfl }

theorem Inv.succeed (hs : Inv s) (r : Word) : Inv (s.succeed r) :=
  { hs with
    ecode_legal := Nat.zero_le 5
    err_ecode := by simp
    err_serr := by simp }

theorem Inv.writeTx (hs : Inv s) {k : Nat} (hk : k < s.nWords) (v : Codeword) : Inv (s.writeTx k v) :=
  { hs with
    tx_canonical := Memory.wf_write k v hs.tx_canonical
    tx_size := Memory.below_write v hs.tx_size hk
    rx_from_tx := fun j hj => by
      have : Memory.written s.tx j = true := hs.rx_from_tx j hj
      simp [Memory.written_write, this] }

theorem Inv.setMok (hs : Inv s) : Inv { s with stat := s.stat.setMok (selfcheck s.hData).ok } :=
  { hs with mok_selfcheck := rfl }

/-- A successful INJ of the batch cs with the admissible draw q keeps the invariant: its log holds the drawn positions,
which name distinct bits of the batch (R160, R164), and it writes RX only where it read TX. -/
theorem Inv.inject (hs : Inv s) {q : List Nat} {l n : Nat} {cs : List Codeword} (hl : l ≤ s.nWords) (hn : n ≤ 16 * l)
    (hr : Memory.readFrom s.tx 0 l = some cs) (hq : ValidDraw q n (16 * l)) : Inv (inject q n cs s) := by
  obtain ⟨hlen, hnd, hlt⟩ := hq
  obtain ⟨hcs, htx⟩ := Memory.readFrom_eq_some.1 hr
  obtain ⟨-, hmax⟩ := hs.nWords_range
  have hcnt : (Machine.inject q n cs s).stat.logcnt.toNat = n := Stat.toNat_setLogcnt s.stat (by omega)
  have hlog : ∀ e (he : e < n), Memory.read? (Machine.inject q n cs s).log e = some (logWord q[e]) ∧
      (logWord q[e]).toNat = q[e] ∧ q[e] < 16 * s.nWords := fun e he => by
    have := hlt q[e] (List.getElem_mem _)
    exact ⟨read?_inject_log q n cs s (by omega), toNat_logWord (by omega), by omega⟩
  exact
  { hs.succeed (BitVec.ofNat 32 n) with
    rx_canonical := Memory.wf_writeFrom 0 _ hs.rx_canonical
    rx_size := Memory.below_writeFrom _ hs.rx_size (by simp; omega)
    log_canonical := Memory.wf_writeFrom 0 _ hs.log_canonical
    log_size := Memory.below_writeFrom _ hs.log_size (by simp; omega)
    rx_from_tx := fun k hk => by
      by_cases hkl : k < l
      · have hread : Memory.read? s.tx k = cs[k]? := by simpa using htx k hkl
        simp [Memory.written, hread, hcs, hkl]
      · refine hs.rx_from_tx k ?_
        simpa [Memory.written, Memory.read?_writeFrom, hcs, hkl] using hk
    logcnt_range := by rw [hcnt, inject_nWords]; omega
    log_entries := fun e he => by
      obtain ⟨hread, hval, hbit⟩ := hlog e (hcnt ▸ he)
      exact ⟨_, hread, by rwa [hval, inject_nWords]⟩
    log_distinct := fun e e' v he he' hv hv' => by
      obtain ⟨hread, hval, -⟩ := hlog e (hcnt ▸ he)
      obtain ⟨hread', hval', -⟩ := hlog e' (hcnt ▸ he')
      rw [hread, Option.some.injEq] at hv
      rw [hread', Option.some.injEq] at hv'
      have hsame : q[e] = q[e'] := by rw [← hval, ← hval', hv, hv']
      exact hnd.getElem_inj_iff.1 hsame }

theorem Inv.exec (hs : Inv s) {i : Instr} {t : State} (h : exec i s = .next t) : Inv t := by
  rcases exec_cases h with ⟨e, rfl⟩ | ⟨r, rfl⟩ | ⟨k, v, r, -, hk, rfl⟩ | ⟨r, -, rfl⟩ | ⟨l, n, cs, -, hl, hn, hr, rfl⟩
  · exact hs.fail e
  · exact hs.succeed r
  · exact (hs.writeTx hk v).succeed r
  · exact hs.setMok.succeed r
  · exact hs.inject hl hn hr (s.draw_valid hn)

theorem Inv.step (hs : Inv s) {t : State} (h : step s = .next t) : Inv t := by
  rcases step_cases h with ⟨-, rfl⟩ | ⟨rest, -, rfl⟩ | ⟨w, rest, i, -, -, hx⟩ | ⟨w, rest, -, rfl⟩
  · exact hs
  · exact Inv.resetEvent hs.nWords_range
  · exact (hs.setPort rest).exec hx
  · exact (hs.setPort rest).fail _

/-- Power-up counts as a reset (R260). -/
theorem Inv.powerUp (h : HData) {n : Nat} (hn : 1 ≤ n ∧ n ≤ 4095) : Inv (State.powerUp h n) :=
  Inv.resetEvent (s := State.powerUp h n) hn

end Invariant

/-! ## The obligations -/

/-- Settles O58: by the cases of a step, each of which keeps the invariant. -/
theorem everyStepKeepsTheInvariant : Obligations.EveryStepKeepsTheInvariant :=
  fun _ _ hs h => hs.step h

/-- Settles O57: power-up is a reset, and N_WORDS of State.reset is in its range. -/
theorem resetMeetsTheInvariant : Obligations.ResetMeetsTheInvariant :=
  ⟨fun h _ h1 h2 => Inv.powerUp h ⟨h1, h2⟩, Inv.powerUp _ Config.nWords_range⟩

/-- Settles O15: a command word fails with a code of R230 or ends in a success. -/
theorem everyCommandWritesErrAndEcode : Obligations.EveryCommandWritesErrAndEcode := by
  intro s t w rest hp h
  rcases step_command_ends hp h with ⟨e, rfl⟩ | ⟨u, r, rfl, -⟩
  · exact .inr ⟨rfl, e.code_cases⟩
  · exact .inl ⟨rfl, rfl⟩

/-- Settles O18: a command word can only set SERR, and a reset answers the reset STAT. -/
theorem onlyResetClearsSerr : Obligations.OnlyResetClearsSerr := by
  refine ⟨fun s t h => ⟨fun hset hclear => ?_, fun w rest hp herr => ?_⟩, fun s rest hp => ⟨_, step_reset hp, rfl⟩, rfl⟩
  · have no_command : ∀ w rest, s.port ≠ .command w :: rest := fun w rest hp => by
      simp [step_command_serr hp h, hset] at hclear
    rcases step_cases h with ⟨-, rfl⟩ | ⟨rest, hr, -⟩ | ⟨w, rest, -, hc, -⟩ | ⟨w, rest, hc, -⟩
    · simp [hset] at hclear
    · exact ⟨rest, hr⟩
    · exact absurd hc (no_command w rest)
    · exact absurd hc (no_command w rest)
  · rw [step_command_serr hp h, herr, Bool.or_true]

/-- Settles O19: of the ways a command ends, only that of CHK writes MOK. -/
theorem onlyChkWritesMok : Obligations.OnlyChkWritesMok := by
  refine fun i s t h => ⟨fun hi => ?_, fun hi => ?_⟩
  · subst hi; cases h; rfl
  · rcases exec_cases h with ⟨e, rfl⟩ | ⟨r, rfl⟩ | ⟨k, v, r, -, -, rfl⟩ | ⟨r, hchk, -⟩ | ⟨l, n, cs, -, -, -, -, rfl⟩
    · rfl
    · rfl
    · rfl
    · exact absurd hchk hi
    · rfl

/-- Settles O20: only a successful INJ writes LOGCNT, and its error count fits the field. -/
theorem onlyASuccessfulInjSetsLogcnt : Obligations.OnlyASuccessfulInjSetsLogcnt := by
  refine ⟨fun i s t hw h => ⟨fun hne => ?_, fun herr => ?_, fun l n hi hok => ?_⟩, rfl⟩
  · rcases exec_logcnt h with heq | ⟨hinj, -⟩
    · exact absurd heq hne
    · exact hinj
  · rcases exec_logcnt h with heq | ⟨-, hok⟩
    · exact heq
    · simp [hok] at herr
  · subst hi
    rcases exec_inj_cases h with ⟨e, rfl⟩ | ⟨hl, hn, cs, -, rfl⟩
    · cases hok
    · exact ⟨s.stat.toNat_setLogcnt (by omega), by omega, by omega⟩

/-- Settles O21: of the ways a command ends, only that of ENCW and WRTX writes TX, at its operand. -/
theorem onlyEncwAndWrtxWriteTx : Obligations.OnlyEncwAndWrtxWriteTx := by
  intro i s t h
  rcases exec_tx h with htx | ⟨k, v, hi, htx⟩ <;> rw [htx]
  · exact ⟨fun _ _ => rfl, fun _ _ _ _ _ => rfl, fun _ _ _ _ _ => rfl⟩
  · rcases hi with ⟨x, rfl⟩ | rfl
    · refine ⟨fun hencw _ => absurd rfl (hencw k x), fun k₀ _ hk k' hne => ?_, fun _ _ hk => nomatch hk⟩
      cases hk
      exact Memory.read?_write_other s.tx v hne
    · refine ⟨fun _ hwrtx => absurd rfl (hwrtx k v), fun _ _ hk => (nomatch hk), fun k₀ _ hk k' hne => ?_⟩
      cases hk
      exact Memory.read?_write_other s.tx v hne

/-- Settles O22: of the ways a command ends, only that of INJ writes RX or LOG or takes a draw. -/
theorem onlyInjWritesRxLogAndRng : Obligations.OnlyInjWritesRxLogAndRng := by
  intro i s t h hi
  rcases exec_cases h with ⟨e, rfl⟩ | ⟨r, rfl⟩ | ⟨k, v, r, -, -, rfl⟩ | ⟨r, -, rfl⟩ | ⟨l, n, cs, hinj, -⟩
  · exact ⟨rfl, rfl, rfl, rfl⟩
  · exact ⟨rfl, rfl, rfl, rfl⟩
  · exact ⟨rfl, rfl, rfl, rfl⟩
  · exact ⟨rfl, rfl, rfl, rfl⟩
  · exact absurd hinj (hi l n)

/-- Settles O23: by the cases of a step and the frame of a command. -/
theorem nothingChangesHOrNWords : Obligations.NothingChangesHOrNWords := by
  refine ⟨fun s t h => ?_, fun i s t h => (exec_frame h).2.2⟩
  rcases step_cases h with ⟨hp, rfl⟩ | ⟨rest, hp | ⟨w, hp⟩, rfl⟩ | ⟨w, rest, i, hp, -, hx⟩ | ⟨w, rest, hp, rfl⟩
  · exact ⟨rfl, rfl, by rw [hp, List.tail_nil]⟩
  · exact ⟨rfl, rfl, by rw [hp]; rfl⟩
  · exact ⟨rfl, rfl, by rw [hp]; rfl⟩
  · rw [hp]; exact exec_frame hx
  · exact ⟨rfl, rfl, by rw [hp]; rfl⟩

/-- Settles O26: the buses are read position by position. -/
theorem columnsAndRowsHoldTheEntriesOfH : Obligations.ColumnsAndRowsHoldTheEntriesOfH := fun h =>
  ⟨fun j m i hi => entry_parity h j m i hi,
   fun j i => ⟨by rw [← atPosition_col, atPosition_eq_getLsbD], by rw [← atPosition_row, atPosition_eq_getLsbD]⟩,
   fun m i hi => col_parity h m i hi,
   fun j => ⟨parityOf_row h j, dataOf_row h j⟩,
   (col_parity h 0 8 rfl).trans (by decide),
   (col_parity h 7 15 rfl).trans (by decide)⟩

/-- Settles O11: the reset step written out. -/
theorem resetLeavesTheResetState : Obligations.ResetLeavesTheResetState := fun s _ hp =>
  ⟨_, step_reset hp, rfl, rfl, rfl, rfl, rfl, rfl, rfl, rfl, Stat.toWord_afterReset s.hData, fun _ => ⟨rfl, rfl⟩,
    rfl, rfl, rfl⟩

/-- Settles O13: the STAT word after a reset, and the range of N_WORDS of State.reset. -/
theorem powerUpIsAReset : Obligations.PowerUpIsAReset :=
  ⟨fun h _ => ⟨rfl, rfl, rfl, congrArg (Prod.mk 0) (Stat.toWord_afterReset h), fun _ => ⟨rfl, rfl⟩⟩,
   ⟨Config.hData, Config.nWords, Config.nWords_range.1, Config.nWords_range.2, rfl⟩⟩

/-- Settles O14: bit by bit. -/
theorem statWordHasItsFields : Obligations.StatWordHasItsFields := by
  intro t
  refine ⟨t.getLsbD_toWord 0, BitVec.eq_of_getLsbD_eq fun b hb => ?_, t.getLsbD_toWord 4, t.getLsbD_toWord 5,
    fun b h6 h15 => ?_, BitVec.eq_of_getLsbD_eq fun b hb => ?_⟩
  · have hb4 : 1 + b < 4 := by omega
    simp [Stat.getLsbD_toWord, hb, hb4]
  · rw [Stat.getLsbD_toWord, if_neg, if_neg, if_neg, if_neg, if_pos] <;> omega
  · have hlow : ¬ 16 + b < 4 := by omega
    have hflags : 16 + b ≠ 4 ∧ 16 + b ≠ 5 := by omega
    simp [Stat.getLsbD_toWord, hb, hlow, hflags]

end Sys2Proof

/-! # Repeated commands: reads and transmit writes -/

namespace Sys2Proof.Machine

variable {s : State}

/-! ## What a response leaves alone -/

section Respond

variable (a : Except ErrCode Word)

@[simp] theorem State.respond_hData : (s.respond a).hData = s.hData := by cases a <;> rfl
@[simp] theorem State.respond_tx : (s.respond a).tx = s.tx := by cases a <;> rfl
@[simp] theorem State.respond_rx : (s.respond a).rx = s.rx := by cases a <;> rfl
@[simp] theorem State.respond_logEntry (e : Nat) : (s.respond a).logEntry e = s.logEntry e := by cases a <;> rfl
@[simp] theorem wordOperand_respond (k : Nat) : wordOperand (s.respond a) k = wordOperand s k := by cases a <;> rfl
@[simp] theorem logOperand_respond (e : Nat) : logOperand (s.respond a) e = logOperand s e := by cases a <;> rfl
@[simp] theorem matrixValid_respond : matrixValid (s.respond a) = matrixValid s := by cases a <;> rfl

/-- Giving the same response again changes nothing. -/
@[simp] theorem State.respond_respond : (s.respond a).respond a = s.respond a := by cases a <;> rfl

/-- A response writes RES, ERR, ECODE and SERR alone (R35, R37 to R39). -/
theorem State.respond_frame :
    s.respond a = { s with
      res := (s.respond a).res
      stat := { s.stat with
        err := (s.respond a).stat.err, ecode := (s.respond a).stat.ecode, serr := (s.respond a).stat.serr } } := by
  cases a <;> rfl

end Respond

/-! ## The commands that only read (R75) -/

/-- Read the word at a checked index and answer with a result computed from it, or with the error of the check. -/
def State.checkedRead (s : State) (p : Except ErrCode Nat) (b : Memory) (f : Codeword → Word) :
    Host.Outcome State Fault Refusal :=
  match p with
  | .error e => .next (s.fail e)
  | .ok k => readThen s b k f

theorem exec_rdtx (s : State) (k : Nat) : exec (.rdtx k) s = s.checkedRead (wordOperand s k) s.tx zext32 := by
  simp only [exec, execRdtx]
  cases wordOperand s k <;> rfl

theorem exec_rdrx (s : State) (k : Nat) : exec (.rdrx k) s = s.checkedRead (wordOperand s k) s.rx zext32 := by
  simp only [exec, execRdrx]
  cases wordOperand s k <;> rfl

/-- DECW checks its index before the matrix (R232). -/
theorem exec_decw (s : State) (k : Nat) : exec (.decw k) s =
    s.checkedRead ((wordOperand s k).bind fun k => (matrixValid s).map fun _ => k) s.rx (decres s.hData) := by
  simp only [exec, execDecw]
  cases wordOperand s k <;> cases matrixValid s <;> rfl

/-- A checked read that does not fault gives a response, which is the same in every state with the same buffer. -/
theorem State.checkedRead_eq_next {t : State} {p : Except ErrCode Nat} {b : Memory} {f : Codeword → Word}
    (h : s.checkedRead p b f = .next t) :
    ∃ a, t = s.respond a ∧ ∀ u : State, u.checkedRead p b f = .next (u.respond a) := by
  cases p with
  | error e => cases h; exact ⟨.error e, rfl, fun u => rfl⟩
  | ok k =>
    simp only [State.checkedRead] at h ⊢
    rcases readThen_cases s b k f with ⟨v, hv, hr⟩ | ⟨-, hr⟩ <;> rw [hr] at h <;> cases h
    exact ⟨.ok (f v), rfl, fun u => by rw [readThen, hv, State.respond_ok]⟩

/-- A command that only reads gives a response, and its response depends on nothing that a response writes. -/
theorem exec_readOnly {i : Instr} {t : State} (hi : ReadOnly i) (h : exec i s = .next t) :
    ∃ a, t = s.respond a ∧ ∀ b, exec i (s.respond b) = .next ((s.respond b).respond a) := by
  cases i with
  | syn c => cases h; exact ⟨.ok _, rfl, fun b => by simp [exec, execSyn]⟩
  | dec c => cases h; exact ⟨_, rfl, fun b => by simp [exec, execDec]⟩
  | col k => cases h; exact ⟨_, rfl, fun b => by simp [exec, execCol]⟩
  | row k => cases h; exact ⟨_, rfl, fun b => by simp [exec, execRow]⟩
  | logrd e => cases h; exact ⟨_, rfl, fun b => by simp [exec, execLogrd]⟩
  | rdtx k =>
    rw [exec_rdtx] at h
    obtain ⟨a, rfl, hread⟩ := State.checkedRead_eq_next h
    exact ⟨a, rfl, fun b => by simp [exec_rdtx, hread]⟩
  | rdrx k =>
    rw [exec_rdrx] at h
    obtain ⟨a, rfl, hread⟩ := State.checkedRead_eq_next h
    exact ⟨a, rfl, fun b => by simp [exec_rdrx, hread]⟩
  | decw k =>
    rw [exec_decw] at h
    obtain ⟨a, rfl, hread⟩ := State.checkedRead_eq_next h
    exact ⟨a, rfl, fun b => by simp [exec_decw, hread]⟩
  | nop => cases hi
  | enc v => cases hi
  | encw k v => cases hi
  | wrtx k c => cases hi
  | inj l n => cases hi
  | chk => cases hi
  | reservedE x => cases hi
  | reservedF x => cases hi

/-! ## The commands that write a TX word (R143, R211) -/

/-- The state after a transmit write: the word is stored and answered, or the error of its operands is. -/
def State.transmit (s : State) : Except ErrCode (Nat × Codeword) → State
  | .ok (k, c) => (s.writeTx k c).succeed (zext32 c)
  | .error e => s.fail e

/-- The index and the codeword that ENCW k, v writes, or its error: INDEX_RANGE before INVALID_INPUT (R232). -/
def encwOperands (s : State) (k v : Nat) : Except ErrCode (Nat × Codeword) :=
  (wordOperand s k).bind fun k => (codePointOperand v).map fun d => (k, enc s.hData d)

theorem exec_encw (s : State) (k v : Nat) : exec (.encw k v) s = .next (s.transmit (encwOperands s k v)) := by
  simp only [exec, execEncw, encwOperands]
  cases wordOperand s k <;> cases codePointOperand v <;> rfl

theorem exec_wrtx (s : State) (k : Nat) (c : Codeword) :
    exec (.wrtx k c) s = .next (s.transmit ((wordOperand s k).map fun k => (k, c))) := by
  simp only [exec, execWrtx]
  cases wordOperand s k <;> rfl

section Transmit

variable (a : Except ErrCode (Nat × Codeword))

@[simp] theorem wordOperand_transmit (k : Nat) : wordOperand (s.transmit a) k = wordOperand s k := by cases a <;> rfl

@[simp] theorem encwOperands_transmit (k v : Nat) : encwOperands (s.transmit a) k v = encwOperands s k v := by
  cases a <;> rfl

/-- The same transmit write again changes nothing: the word it stores stands there already. -/
@[simp] theorem State.transmit_transmit : (s.transmit a).transmit a = s.transmit a := by
  cases a with
  | error e => rfl
  | ok kc =>
    obtain ⟨k, c⟩ := kc
    simp [State.transmit, State.succeed, State.writeTx, Stat.succeed, Memory.write_write_same]

end Transmit

end Sys2Proof.Machine

namespace Sys2Proof

open Sys2Proof.Machine

/-- Settles O24: a reading command gives a response, which the same command gives again. -/
theorem readingCommandsRepeat : Obligations.ReadingCommandsRepeat := by
  intro i s t hi h
  obtain ⟨a, rfl, hrepeat⟩ := exec_readOnly hi h
  exact ⟨s.respond_frame a, by rw [hrepeat a, State.respond_respond]⟩

/-- Settles O25: each is a transmit write, and the same transmit write again changes nothing. -/
theorem transmitWritesAreIdempotent : Obligations.TransmitWritesAreIdempotent := by
  refine fun s t k => ⟨fun v h => ?_, fun c h => ?_⟩
  · rw [exec_encw] at h
    cases h
    rw [exec_encw, encwOperands_transmit, State.transmit_transmit]
  · rw [exec_wrtx] at h
    cases h
    rw [exec_wrtx, wordOperand_transmit, State.transmit_transmit]

end Sys2Proof

/-! # Encoding: a word is one command, or illegal -/

namespace Sys2Proof

open Sys2Proof.Machine

variable {s : State} {w : Word} {r r' : OpcodeRow} {i : Instr}

/-! ## Bits of the fields -/

@[simp] theorem toK_toNat (k : BitVec 12) : toK k.toNat = k := by simp [toK]
@[simp] theorem toV_toNat (v : BitVec 16) : toV v.toNat = v := by simp [toV]

@[simp] theorem fitsK_toNat (k : BitVec 12) : fitsK k.toNat = true := decide_eq_true (Nat.le_of_lt_succ k.isLt)
@[simp] theorem fitsV_toNat (v : BitVec 16) : fitsV v.toNat = true := decide_eq_true (Nat.le_of_lt_succ v.isLt)

@[simp] theorem and_maxK (k : BitVec 12) : k &&& 0xFFF#12 = k := BitVec.and_allOnes
@[simp] theorem and_maxV (v : BitVec 16) : v &&& 0xFFFF#16 = v := BitVec.and_allOnes

@[simp] theorem opField_append (op : BitVec 4) (x : BitVec 28) : opField (op ++ x) = op :=
  BitVec.extractLsb'_append_eq_left

@[simp] theorem low28_append (op : BitVec 4) (x : BitVec 28) : BitVec.extractLsb' 0 28 (op ++ x) = x :=
  BitVec.extractLsb'_append_eq_right

/-- A word is its opcode and its other 28 bits. -/
theorem opField_append_low28 (w : Word) : opField w ++ w.extractLsb' 0 28 = w := by
  refine BitVec.eq_of_getLsbD_eq fun b hb => ?_
  rw [BitVec.getLsbD_append]
  by_cases h : b < 28
  · simp [h]
  · have h4 : b - 28 < 4 := by omega
    simp [h, h4, opField, show 28 + (b - 28) = b by omega]

/-! ## The opcode map: each opcode below 0xE has one row, the two reserved ones have none (R92, R94) -/

theorem opcode_cases (op : BitVec 4) : (op = 0xE ∨ op = 0xF) ∨ ∃ r ∈ opcodeRows, r.op = op := by
  revert op; decide

theorem opcodeRows_ops_nodup : (opcodeRows.map OpcodeRow.op).Nodup := by decide

theorem opcodeRows_op_inj (hr : r ∈ opcodeRows) (hr' : r' ∈ opcodeRows) (h : r.op = r'.op) : r = r' :=
  List.inj_on_of_nodup_map opcodeRows_ops_nodup hr hr' h

theorem op_not_reserved (hr : r ∈ opcodeRows) : ¬ (r.op = 0xE ∨ r.op = 0xF) := by
  revert r; decide

/-- A row selects the words of its opcode whose must-be-zero fields, the ones its mask covers, are zero (R92, R93). -/
theorem selects_iff (hr : r ∈ opcodeRows) : r.selects w = true ↔
    opField w = r.op ∧ kField w &&& kField r.mask = 0 ∧ vField w &&& vField r.mask = 0 := by
  obtain ⟨k, v, -, -, hm, hp⟩ := opcodeRows_shape r hr
  have hmask : r.mask = formatC 0xF (kField r.mask) (vField r.mask) := by rw [hm, kField_formatC, vField_formatC]
  rw [← selects_formatC r hmask hp, formatC_fields]

/-! ## The command that a word's fields spell -/

/-- The command of opcode op whose operands are the fields of w, whatever the must-be-zero fields hold (R91, R92). -/
def commandOf (op : BitVec 4) (w : Word) : Instr :=
  match op.toNat with
  | 0x0 => .nop
  | 0x1 => .enc (vField w).toNat
  | 0x2 => .syn (vField w)
  | 0x3 => .dec (vField w)
  | 0x4 => .col (kField w).toNat
  | 0x5 => .row (kField w).toNat
  | 0x6 => .encw (kField w).toNat (vField w).toNat
  | 0x7 => .wrtx (kField w).toNat (vField w)
  | 0x8 => .rdtx (kField w).toNat
  | 0x9 => .rdrx (kField w).toNat
  | 0xA => .inj (kField w).toNat (vField w).toNat
  | 0xB => .decw (kField w).toNat
  | 0xC => .logrd (vField w).toNat
  | 0xD => .chk
  | 0xE => .reservedE (w.extractLsb' 0 28)
  | _ => .reservedF (w.extractLsb' 0 28)

/-- A field's value fits the field. -/
theorem wellFormed_commandOf (op : BitVec 4) (w : Word) : (commandOf op w).wellFormed = true := by
  unfold commandOf
  split <;> simp [Instr.wellFormed]

theorem row?_commandOf (hr : r ∈ opcodeRows) (w : Word) : (commandOf r.op w).row? = some r := by
  simp only [opcodeRows] at hr
  fin_cases hr <;> rfl

theorem reserved_iff_row?_eq_none : Reserved i ↔ i.row? = none := by
  cases i <;> simp [Reserved, Instr.row?]

/-- A word of a row's opcode is that row's command or illegal (R96). -/
theorem decode_of_row (hr : r ∈ opcodeRows) (hop : opField w = r.op) :
    decode w = accept r w (commandOf r.op w) := by
  simp only [decode, hop]
  simp only [opcodeRows] at hr
  fin_cases hr <;> rfl

theorem decode_of_selects (hr : r ∈ opcodeRows) (h : r.selects w = true) : decode w = .ok (commandOf r.op w) := by
  rw [decode_of_row hr ((selects_iff hr).1 h).1, accept_eq, if_pos h]

theorem decode_of_not_selects (hr : r ∈ opcodeRows) (hop : opField w = r.op) (h : ¬ r.selects w = true) :
    decode w = .error .mustBeZero := by
  rw [decode_of_row hr hop, accept_eq, if_neg h]

theorem decode_of_reserved (h : opField w = 0xE ∨ opField w = 0xF) : decode w = .ok (commandOf (opField w) w) := by
  rcases h with h | h <;> simp only [decode, h] <;> rfl

/-- The words that are commands: those of a reserved opcode and those that a row selects (R94, R96). -/
theorem decode_eq_ok_iff : decode w = .ok i ↔
    commandOf (opField w) w = i ∧ ((opField w = 0xE ∨ opField w = 0xF) ∨ ∃ r ∈ opcodeRows, r.selects w = true) := by
  constructor
  · intro h
    rcases opcode_cases (opField w) with hres | ⟨r, hr, hop⟩
    · rw [decode_of_reserved hres] at h
      cases h
      exact ⟨rfl, .inl hres⟩
    · by_cases hsel : r.selects w = true
      · rw [decode_of_selects hr hsel, hop] at h
        cases h
        exact ⟨rfl, .inr ⟨r, hr, hsel⟩⟩
      · rw [decode_of_not_selects hr hop.symm hsel] at h
        cases h
  · rintro ⟨rfl, hres | ⟨r, hr, hsel⟩⟩
    · exact decode_of_reserved hres
    · rw [decode_of_selects hr hsel, ((selects_iff hr).1 hsel).1]

/-! ## A command and its word -/

/-- The fields of a well-formed command's word spell the command: no bit of an operand is lost (R90). -/
theorem commandOf_encode (h : i.wellFormed = true) : commandOf (opField (encode i)) (encode i) = i := by
  cases i with
  | reservedE x => simp [encode, commandOf]
  | reservedF x => simp [encode, commandOf]
  | _ => simp_all [encode, commandOf, Instr.wellFormed]

/-- The command that the fields of a row's opcode spell has these fields, when the must-be-zero ones are zero (R93). -/
theorem encode_commandOf_formatC {k : BitVec 12} {v : BitVec 16} (hr : r ∈ opcodeRows) (hk : k &&& kField r.mask = 0)
    (hv : v &&& vField r.mask = 0) : encode (commandOf r.op (formatC r.op k v)) = formatC r.op k v := by
  simp only [commandOf, kField_formatC, vField_formatC]
  simp only [opcodeRows] at hr
  fin_cases hr <;> simp_all [encode, kField, vField, rowNop, rowEnc, rowSyn, rowDec, rowCol, rowRow, rowEncw, rowWrtx,
    rowRdtx, rowRdrx, rowInj, rowDecw, rowLogrd, rowChk]

/-- A word that a row selects is the word of the command it spells (R92). -/
theorem encode_commandOf_of_selects (hr : r ∈ opcodeRows) (h : r.selects w = true) :
    encode (commandOf r.op w) = w := by
  obtain ⟨hop, hk, hv⟩ := (selects_iff hr).1 h
  have hfields := encode_commandOf_formatC hr hk hv
  rwa [← hop, formatC_fields, hop] at hfields

theorem encode_commandOf_of_reserved (h : opField w = 0xE ∨ opField w = 0xF) :
    encode (commandOf (opField w) w) = w := by
  have hw := opField_append_low28 w
  rcases h with h | h <;> rw [h] at hw ⊢ <;> exact hw

theorem mem_of_row?_eq_some (h : i.row? = some r) : r ∈ opcodeRows := by
  cases i <;> cases h <;> decide

/-- The row of each command selects its word. -/
theorem encode_matches_row (i : Instr) : Laws.EncodeMatchesRow.Statement i := by
  cases i with
  | nop => exact Laws.EncodeMatchesRow.nop
  | enc v => exact Laws.EncodeMatchesRow.enc v
  | syn c => exact Laws.EncodeMatchesRow.syn c
  | dec c => exact Laws.EncodeMatchesRow.dec c
  | col k => exact Laws.EncodeMatchesRow.col k
  | row k => exact Laws.EncodeMatchesRow.row k
  | encw k v => exact Laws.EncodeMatchesRow.encw k v
  | wrtx k c => exact Laws.EncodeMatchesRow.wrtx k c
  | rdtx k => exact Laws.EncodeMatchesRow.rdtx k
  | rdrx k => exact Laws.EncodeMatchesRow.rdrx k
  | inj l n => exact Laws.EncodeMatchesRow.inj l n
  | decw k => exact Laws.EncodeMatchesRow.decw k
  | logrd e => exact Laws.EncodeMatchesRow.logrd e
  | chk => exact Laws.EncodeMatchesRow.chk
  | reservedE x => exact Laws.EncodeMatchesRow.reservedE x
  | reservedF x => exact Laws.EncodeMatchesRow.reservedF x

theorem encode_reserved_or_selected (i : Instr) :
    (opField (encode i) = 0xE ∨ opField (encode i) = 0xF) ∨ ∃ r ∈ opcodeRows, r.selects (encode i) = true := by
  have hlaw := encode_matches_row i
  unfold Laws.EncodeMatchesRow.Statement at hlaw
  split at hlaw
  · next r hrow => exact .inr ⟨r, mem_of_row?_eq_some hrow, hlaw⟩
  · exact .inl hlaw

/-! ## A step that takes a word -/

theorem step_of_decode_ok {rest : List HostEvent} (hp : s.port = .command w :: rest) (h : decode w = .ok i) :
    step s = exec i { s with port := rest } := by
  simp only [step, serve, hp, runEvent, runWord, h]

theorem step_of_decode_error {rest : List HostEvent} (hp : s.port = .command w :: rest)
    (h : decode w = .error .mustBeZero) : step s = .next (errState { s with port := rest } 1) := by
  simp only [step, serve, hp, runEvent, runWord, h]
  rfl

theorem exec_reserved (h : Reserved i) (s : State) : exec i s = .next (errState s 1) := by
  cases i with
  | reservedE x => rfl
  | reservedF x => rfl
  | _ => exact h.elim

theorem commandOf_reserved {op : BitVec 4} (h : op = 0xE ∨ op = 0xF) (w : Word) : Reserved (commandOf op w) := by
  rcases h with rfl | rfl <;> trivial

theorem step_reserved {rest : List HostEvent} (hp : s.port = .command w :: rest)
    (h : opField w = 0xE ∨ opField w = 0xF) : step s = .next (errState { s with port := rest } 1) := by
  rw [step_of_decode_ok hp (decode_of_reserved h), exec_reserved (commandOf_reserved h w)]

/-- A word of a row's opcode that the row does not select is illegal (R96). -/
theorem step_of_not_selects {rest : List HostEvent} (hp : s.port = .command w :: rest) (hr : r ∈ opcodeRows)
    (hop : opField w = r.op) (h : ¬ r.selects w = true) : step s = .next (errState { s with port := rest } 1) :=
  step_of_decode_error hp (decode_of_not_selects hr hop h)

/-! ## Must-be-zero fields (R93) -/

theorem opcodeRows_zeroK : ∀ op ∈ [0x0#4, 0x1#4, 0x2#4, 0x3#4, 0xC#4, 0xD#4],
    ∃ r ∈ opcodeRows, op = r.op ∧ kField r.mask = 0xFFF#12 := by decide

theorem opcodeRows_zeroV : ∀ op ∈ [0x0#4, 0x4#4, 0x5#4, 0x8#4, 0x9#4, 0xB#4, 0xD#4],
    ∃ r ∈ opcodeRows, op = r.op ∧ vField r.mask = 0xFFFF#16 := by decide

/-! ## The obligations -/

/-- Settles O1: the word of a command is one of a reserved opcode or one its row selects, and its fields spell the
command. -/
theorem decodeUndoesEncode : Obligations.DecodeUndoesEncode := fun i hwf =>
  decode_eq_ok_iff.2 ⟨commandOf_encode hwf, encode_reserved_or_selected i⟩

/-- Settles O2: the word's fields fit, and what they leave out is zero. -/
theorem encodeUndoesDecode : Obligations.EncodeUndoesDecode := by
  intro w i h
  obtain ⟨rfl, hcmd⟩ := decode_eq_ok_iff.1 h
  refine ⟨wellFormed_commandOf _ w, ?_⟩
  rcases hcmd with hres | ⟨r, hr, hsel⟩
  · exact encode_commandOf_of_reserved hres
  · rw [((selects_iff hr).1 hsel).1, encode_commandOf_of_selects hr hsel]

/-- Settles O3: the opcode has one row or is reserved, and a row selects only words of its own opcode. -/
theorem everyWordIsOneCommandOrIllegal : Obligations.EveryWordIsOneCommandOrIllegal := by
  refine fun s w rest hp => ⟨step_reserved hp, fun hE hF => ?_, fun r hr hop => ⟨fun hsel => ?_, fun hsel => ?_⟩,
    fun r hr r' hr' hsel hsel' => ?_⟩
  · obtain ⟨r, hr, hop⟩ := (opcode_cases (opField w)).resolve_left (not_or.2 ⟨hE, hF⟩)
    exact ⟨r, ⟨hr, hop⟩, fun r' ⟨hr', hop'⟩ => opcodeRows_op_inj hr' hr (hop'.trans hop.symm)⟩
  · have hdec := decode_of_selects hr (decide_eq_true hsel)
    exact ⟨_, hdec, row?_commandOf hr w, step_of_decode_ok hp hdec⟩
  · exact step_of_not_selects hp hr hop.symm (by simpa [OpcodeRow.selects] using hsel)
  · obtain ⟨hop, -⟩ := (selects_iff hr).1 (decide_eq_true hsel)
    obtain ⟨hop', -⟩ := (selects_iff hr').1 (decide_eq_true hsel')
    exact opcodeRows_op_inj hr hr' (hop.symm.trans hop')

/-- Settles O4: the command of a row, read off row by row. -/
theorem operandsAreTheFieldsOfTheWord : Obligations.OperandsAreTheFieldsOfTheWord := by
  intro w
  have hrow : ∀ r ∈ opcodeRows, r.selects w = true → decode w = .ok (commandOf r.op w) := fun r => decode_of_selects
  simp only [opcodeRows, List.cons_append, List.nil_append, List.forall_mem_cons, List.not_mem_nil, false_imp_iff,
    implies_true, and_true] at hrow
  exact hrow

/-- Settles O6: a row does not select a word with a bit in a field that its mask covers. -/
theorem mustBeZeroFieldsMakeWordsIllegal : Obligations.MustBeZeroFieldsMakeWordsIllegal := by
  refine ⟨fun s w rest hp => ⟨fun hop hk => ?_, fun hop hv => ?_⟩, fun s => ⟨rfl, rfl⟩⟩
  · obtain ⟨r, hr, hop, hmask⟩ := opcodeRows_zeroK _ hop
    refine step_of_not_selects hp hr hop fun hsel => hk ?_
    obtain ⟨-, hzero, -⟩ := (selects_iff hr).1 hsel
    rwa [hmask, and_maxK] at hzero
  · obtain ⟨r, hr, hop, hmask⟩ := opcodeRows_zeroV _ hop
    refine step_of_not_selects hp hr hop fun hsel => hv ?_
    obtain ⟨-, -, hzero⟩ := (selects_iff hr).1 hsel
    rwa [hmask, and_maxV] at hzero

/-- Settles O7: the rows are those of the other opcodes, so a command is selected exactly when it is not reserved. -/
theorem reservedOpcodesAreIllegal : Obligations.ReservedOpcodesAreIllegal := by
  refine ⟨fun s w rest hp => ⟨step_reserved hp, fun hnone => ?_⟩, fun w => ⟨?_, ?_⟩, ?_⟩
  · rcases opcode_cases (opField w) with hres | ⟨r, hr, hop⟩
    · exact step_reserved hp hres
    · exact step_of_not_selects hp hr hop.symm fun hsel => hnone ⟨r, hr, hsel⟩
  · rintro ⟨r, hr, hsel⟩
    exact ⟨_, decode_of_selects hr hsel, by simp [reserved_iff_row?_eq_none, row?_commandOf hr w]⟩
  · rintro ⟨i, hdec, hi⟩
    obtain ⟨rfl, hcmd⟩ := decode_eq_ok_iff.1 hdec
    exact hcmd.resolve_left fun hres => hi (commandOf_reserved hres w)
  · rintro w hres ⟨r, hr, hsel⟩
    rw [((selects_iff hr).1 hsel).1] at hres
    exact op_not_reserved hr hres

/-- Settles O5: by evaluation. -/
theorem writtenOutWordsDecode : Obligations.WrittenOutWordsDecode := by
  unfold Obligations.WrittenOutWordsDecode
  decide

/-- Settles O8: both are reserved commands. -/
theorem reservedCommandsAnswerIllegalCmd : Obligations.ReservedCommandsAnswerIllegalCmd := fun s x =>
  ⟨exec_reserved (i := .reservedE x) trivial s, exec_reserved (i := .reservedF x) trivial s⟩

end Sys2Proof

/-! # The codec table: columns, rows and the self-check of H -/

namespace Sys2Proof.Machine

/-! ## The first match of a scan (R124, R182) -/

/-- A scan of a list sorted by R answers a member that passes the test when none before it passes. -/
theorem find?_eq_some_of_pairwise {α : Type} {R : α → α → Prop} {p : α → Bool} {l : List α} {a : α} (hl : l.Pairwise R)
    (ha : a ∈ l) (hp : p a = true) (hfirst : ∀ b ∈ l, R b a → p b = false) : l.find? p = some a := by
  obtain ⟨as, bs, rfl⟩ := List.append_of_mem ha
  obtain ⟨-, -, hbefore⟩ := List.pairwise_append.1 hl
  refine List.find?_eq_some_iff_append.2 ⟨hp, as, bs, rfl, fun b hb => ?_⟩
  rw [hfirst b (List.mem_append_left _ hb) (hbefore b hb a List.mem_cons_self), Bool.not_false]

/-- The order of the scan of pairs: ascending in i, then in j (R124). -/
theorem pairs_pairwise : pairs.Pairwise fun a b => a.1 < b.1 ∨ a.1 = b.1 ∧ a.2 < b.2 := by
  have hpos : positions.Pairwise (· < ·) := List.pairwise_lt_finRange 16
  refine List.pairwise_flatMap.2 ⟨fun i _ => ?_, hpos.imp fun {i i'} hi a ha b hb => ?_⟩
  · exact List.pairwise_map.2 ((hpos.filter _).imp fun hj => .inr ⟨rfl, hj⟩)
  · obtain ⟨j, -, rfl⟩ := List.mem_map.1 ha
    obtain ⟨j', -, rfl⟩ := List.mem_map.1 hb
    exact .inl hi

section Scan

variable {i j : Fin 16}

theorem find?_positions_of_first {p : Fin 16 → Bool} (hi : p i = true) (hfirst : ∀ i', i' < i → p i' = false) :
    positions.find? p = some i :=
  find?_eq_some_of_pairwise (List.pairwise_lt_finRange 16) (mem_positions i) hi fun i' _ => hfirst i'

theorem find?_positions_eq_none {p : Fin 16 → Bool} : positions.find? p = none ↔ ∀ i, p i = false := by
  simp [List.find?_eq_none, mem_positions]

theorem find?_positions_isSome {p : Fin 16 → Bool} : (positions.find? p).isSome = true ↔ ∃ i, p i = true := by
  simp [List.find?_isSome, mem_positions]

theorem find?_pairs_of_first {p : Fin 16 × Fin 16 → Bool} (hij : i < j) (hp : p (i, j) = true)
    (hfirst : ∀ i' j', i' < j' → (i' < i ∨ i' = i ∧ j' < j) → p (i', j') = false) : pairs.find? p = some (i, j) :=
  find?_eq_some_of_pairwise pairs_pairwise (mem_pairs.2 hij) hp fun (i', j') hmem => hfirst i' j' (mem_pairs.1 hmem)

theorem find?_pairs_eq_none {p : Fin 16 × Fin 16 → Bool} :
    pairs.find? p = none ↔ ∀ i j, i < j → p (i, j) = false := by
  simp [List.find?_eq_none, mem_pairs]

theorem find?_pairs_isSome {p : Fin 16 × Fin 16 → Bool} :
    (pairs.find? p).isSome = true ↔ ∃ i j, i < j ∧ p (i, j) = true := by
  simp [List.find?_isSome, mem_pairs]

end Scan

/-! ## What the self-check finds (R124) -/

section SelfCheck

variable {h : HData} {i j : Fin 16}

theorem selfcheck_zcol : (selfcheck h).zcol = true ↔ ∃ i, col h i = 0 := by
  simp only [selfcheck, find?_positions_isSome, decide_eq_true_eq]

theorem selfcheck_dup : (selfcheck h).dup = true ↔ ∃ i j, i < j ∧ col h i = col h j := by
  simp only [selfcheck, find?_pairs_isSome, decide_eq_true_eq]

/-- A matrix passes when no column is zero and no two are equal. -/
theorem selfcheck_ok : (selfcheck h).ok = true ↔ (¬ ∃ i, col h i = 0) ∧ ¬ ∃ i j, i < j ∧ col h i = col h j := by
  rw [← selfcheck_zcol, ← selfcheck_dup, SelfCheck.ok, Bool.and_eq_true, Bool.not_eq_true', Bool.not_eq_true',
    Bool.not_eq_true, Bool.not_eq_true]

theorem selfcheck_zi_of_first (hi : col h i = 0) (hfirst : ∀ i', i' < i → col h i' ≠ 0) : (selfcheck h).zi = i := by
  have hscan : positions.find? (fun i => decide (col h i = 0)) = some i :=
    find?_positions_of_first (decide_eq_true hi) fun i' hlt => decide_eq_false (hfirst i' hlt)
  simp only [selfcheck, hscan, Option.getD_some]

theorem selfcheck_zi_of_none (hnone : ∀ i, col h i ≠ 0) : (selfcheck h).zi = 0 := by
  have hscan : positions.find? (fun i => decide (col h i = 0)) = none :=
    find?_positions_eq_none.2 fun i => decide_eq_false (hnone i)
  simp only [selfcheck, hscan, Option.getD_none]

theorem selfcheck_pair_of_first (hij : i < j) (heq : col h i = col h j)
    (hfirst : ∀ i' j', i' < j' → (i' < i ∨ i' = i ∧ j' < j) → col h i' ≠ col h j') :
    (selfcheck h).di = i ∧ (selfcheck h).dj = j := by
  have hscan : pairs.find? (fun p => decide (col h p.1 = col h p.2)) = some (i, j) :=
    find?_pairs_of_first hij (decide_eq_true heq) fun i' j' hlt hb => decide_eq_false (hfirst i' j' hlt hb)
  simp only [selfcheck, hscan, Option.getD_some, and_self]

theorem selfcheck_pair_of_none (hnone : ∀ i j, i < j → col h i ≠ col h j) :
    (selfcheck h).di = 0 ∧ (selfcheck h).dj = 0 := by
  have hscan : pairs.find? (fun p => decide (col h p.1 = col h p.2)) = none :=
    find?_pairs_eq_none.2 fun i j hij => decide_eq_false (hnone i j hij)
  simp only [selfcheck, hscan, Option.getD_none, and_self]

/-! ## The parity columns pass: they are the distinct, non-zero one-hot bytes (R120, R124) -/

theorem onehot8_ne_zero : ∀ m : Fin 8, onehot8 m ≠ 0 := by decide

theorem onehot8_injective : ∀ m m' : Fin 8, onehot8 m = onehot8 m' → m = m' := by decide

theorem lt_eight_of_col_eq_zero (hi : col h i = 0) : i.val < 8 := by
  by_contra hge
  rw [col_parity h ⟨i.val - 8, by omega⟩ i (by simp only; omega)] at hi
  exact onehot8_ne_zero _ hi

theorem lt_eight_of_col_eq_col (hij : i < j) (heq : col h i = col h j) : i.val < 8 := by
  by_contra hge
  have hlt : i.val < j.val := hij
  rw [col_parity h ⟨i.val - 8, by omega⟩ i (by simp only; omega),
    col_parity h ⟨j.val - 8, by omega⟩ j (by simp only; omega)] at heq
  have hval := Fin.mk.inj_iff.1 (onehot8_injective _ _ heq)
  omega

end SelfCheck

/-! ## The fields of the record (R124) -/

@[simp] theorem toNat_positionField (i : Fin 16) : (positionField i).toNat = i.val := by
  rw [positionField, BitVec.toNat_ofNat, Nat.mod_eq_of_lt i.isLt]

section Record

variable (r : SelfCheck)

/-- The low four bits: OK, ZCOL, DUP and zero. -/
theorem SelfCheck.getLsbD_toRecord (b : Nat) (hb : b < 4) : r.toRecord.getLsbD b =
    if b = 0 then r.ok else if b = 1 then r.zcol else if b = 2 then r.dup else false := by
  rw [SelfCheck.toRecord, BitVec.getLsbD_append, if_pos (by omega)]
  simp only [BitVec.getLsbD_append, BitVec.getLsbD_ofBool, BitVec.getLsbD_zero]
  interval_cases b <;> simp

@[simp] theorem SelfCheck.toRecord_zi : r.toRecord.extractLsb' 4 4 = positionField r.zi := by
  rw [SelfCheck.toRecord, BitVec.extractLsb'_append_eq_of_le (by omega)]
  exact BitVec.extractLsb'_append_eq_right

@[simp] theorem SelfCheck.toRecord_di : r.toRecord.extractLsb' 8 4 = positionField r.di := by
  rw [SelfCheck.toRecord, BitVec.extractLsb'_append_eq_of_le (by omega), BitVec.extractLsb'_append_eq_of_le (by omega)]
  exact BitVec.extractLsb'_append_eq_right

@[simp] theorem SelfCheck.toRecord_dj : r.toRecord.extractLsb' 12 4 = positionField r.dj := by
  rw [SelfCheck.toRecord, BitVec.extractLsb'_append_eq_of_le (by omega), BitVec.extractLsb'_append_eq_of_le (by omega)]
  exact BitVec.extractLsb'_append_eq_left

end Record

/-! ## COL and ROW in each case of their operand (R122, R123) -/

section Table

variable (s : State) {k : Nat}

theorem exec_col_of_lt (hk : k < 16) : exec (.col k) s = .next (okState s (zext32 (col s.hData ⟨k, hk⟩))) := by
  have hop : columnOperand k = .ok ⟨k, hk⟩ := dif_pos hk
  rw [exec, execCol, hop]
  rfl

theorem exec_col_of_le (hk : 16 ≤ k) : exec (.col k) s = .next (errState s 2) := by
  have hop : columnOperand k = .error .indexRange := dif_neg (Nat.not_lt.2 hk)
  rw [exec, execCol, hop]
  rfl

theorem exec_row_of_lt (hk : k < 8) : exec (.row k) s = .next (okState s (zext32 (row s.hData ⟨k, hk⟩))) := by
  have hop : rowOperand k = .ok ⟨k, hk⟩ := dif_pos hk
  rw [exec, execRow, hop]
  rfl

theorem exec_row_of_le (hk : 8 ≤ k) : exec (.row k) s = .next (errState s 2) := by
  have hop : rowOperand k = .error .indexRange := dif_neg (Nat.not_lt.2 hk)
  rw [exec, execRow, hop]
  rfl

end Table

end Sys2Proof.Machine

namespace Sys2Proof

open Sys2Proof.Machine

/-! ## The obligations -/

/-- Settles O30: bit by bit of the record, with what each scan of the self-check finds. -/
theorem selfCheckRecordSaysWhatIsWrong : Obligations.SelfCheckRecordSaysWhatIsWrong := by
  intro h
  have hbit := (selfcheck h).getLsbD_toRecord
  refine ⟨?ok, (hbit 0 (by decide)).symm, ?zcol, ?dup, hbit 3 (by decide), fun i hi hfirst => ?zi, fun hnone => ?noZero,
    fun i j hij heq hfirst => ?pair, fun hnone => ?noPair, fun i => lt_eight_of_col_eq_zero,
    fun i j => lt_eight_of_col_eq_col⟩
  case ok => rw [hbit 0 (by decide)]; exact selfcheck_ok
  case zcol => rw [hbit 1 (by decide)]; exact selfcheck_zcol
  case dup => rw [hbit 2 (by decide)]; exact selfcheck_dup
  case zi => rw [SelfCheck.toRecord_zi, toNat_positionField, selfcheck_zi_of_first hi hfirst]
  case noZero => rw [SelfCheck.toRecord_zi, selfcheck_zi_of_none hnone]; rfl
  case pair =>
    obtain ⟨hdi, hdj⟩ := selfcheck_pair_of_first hij heq hfirst
    rw [SelfCheck.toRecord_di, SelfCheck.toRecord_dj, toNat_positionField, toNat_positionField, hdi, hdj]
    exact ⟨rfl, rfl⟩
  case noPair =>
    obtain ⟨hdi, hdj⟩ := selfcheck_pair_of_none hnone
    rw [SelfCheck.toRecord_di, SelfCheck.toRecord_dj, hdi, hdj]
    exact ⟨rfl, rfl⟩

/-- Settles O27: the two cases of the operand; column 8 + m is a parity column. -/
theorem colAnswersTheColumn : Obligations.ColAnswersTheColumn := fun s =>
  ⟨fun i => exec_col_of_lt s i.isLt, fun _ hk => exec_col_of_le s hk, fun m => by
    have hm : 8 + m.val < 16 := by omega
    rw [exec_col_of_lt s hm, col_parity s.hData m ⟨8 + m.val, hm⟩ rfl, zext32]⟩

/-- Settles O28: the two cases of the operand. -/
theorem rowAnswersTheRow : Obligations.RowAnswersTheRow := fun s =>
  ⟨fun j => exec_row_of_lt s j.isLt, fun _ hk => exec_row_of_le s hk⟩

/-- Settles O29: CHK is one success, written out. -/
theorem chkAnswersTheSelfCheck : Obligations.ChkAnswersTheSelfCheck := fun _ => rfl

end Sys2Proof

/-! # The encoder: parity bits, codewords, ENC and ENCW -/

namespace Sys2Proof.Machine

/-! ## Parity and weight of a word, position by position and half by half (R10, R72) -/

section Bits

variable {w : Nat}

@[simp] theorem atPosition_and (v u : BitVec w) (i : Fin w) :
    atPosition (v &&& u) i = (atPosition v i && atPosition u i) := by
  simp [atPosition, BitVec.getMsbD_and]

theorem ofPositions_atPosition (v : BitVec w) : ofPositions (atPosition v) = v :=
  eq_of_atPosition fun i => atPosition_ofPositions _ i

theorem xorBits_concat (v : BitVec w) (b : Bool) (n : Nat) : xorBits (v.concat b) (n + 1) = (xorBits v n ^^ b) := by
  induction n with
  | zero => simp [xorBits]
  | succ n ih => rw [xorBits, ih, BitVec.getLsbD_concat_succ, xorBits, Bool.xor_right_comm]

/-- The parity of a word given by its positions: their XOR in ascending order. -/
theorem parity_ofPositions {n : Nat} (f : Fin n → Bool) :
    parity (ofPositions f) = (List.finRange n).foldl (fun x i => x ^^ f i) false := by
  induction n with
  | zero => rfl
  | succ n ih =>
    rw [parity, ofPositions, xorBits_concat, ← parity, ih, List.finRange_succ_last, List.foldl_append, List.foldl_map]
    rfl

theorem parity_eq_foldl_atPosition (v : BitVec w) :
    parity v = (List.finRange w).foldl (fun x i => x ^^ atPosition v i) false := by
  rw [← parity_ofPositions, ofPositions_atPosition]

/-- Parity says whether the weight is odd. -/
theorem parity_eq_bodd_popcount (v : BitVec w) : parity v = (popcount v).bodd := by
  have h (n : Nat) : xorBits v n = (onesBelow v n).bodd := by
    induction n with
    | zero => exact Nat.bodd_zero.symm
    | succ n ih => rw [xorBits, onesBelow, ih, Nat.bodd_add]; cases v.getLsbD n <;> simp
  exact h w

/-- The ones below bit m + n are those below m and those of the slice from m on. -/
theorem onesBelow_add (v : BitVec w) (m : Nat) {n k : Nat} (hn : n ≤ k) :
    onesBelow v (m + n) = onesBelow v m + onesBelow (v.extractLsb' m k) n := by
  induction n with
  | zero => rfl
  | succ n ih =>
    have hbit : (v.extractLsb' m k).getLsbD n = v.getLsbD (m + n) := by
      rw [BitVec.getLsbD_extractLsb', decide_eq_true (by omega), Bool.true_and]
    rw [← Nat.add_assoc, onesBelow, ih (by omega), onesBelow, hbit, Nat.add_assoc]

theorem onesBelow_eq_zero {v : BitVec w} {n : Nat} : onesBelow v n = 0 ↔ ∀ b < n, v.getLsbD b = false := by
  induction n with
  | zero => simp [onesBelow]
  | succ n ih => simp only [onesBelow, Nat.add_eq_zero_iff, ih, Nat.forall_lt_succ_right, Bool.toNat_eq_zero]

/-- Only the zero word has weight 0. -/
theorem popcount_pos {v : BitVec w} (hv : v ≠ 0) : 1 ≤ popcount v := by
  refine Nat.pos_of_ne_zero fun h => hv (BitVec.eq_of_getLsbD_eq fun b hb => ?_)
  rw [onesBelow_eq_zero.1 h b hb]
  exact BitVec.getLsbD_zero.symm

end Bits

theorem popcount_eq_add_halves (c : Codeword) : popcount c = popcount (dataOf c) + popcount (parityOf c) := by
  have hhigh : onesBelow c (8 + 8) = onesBelow c 8 + popcount (dataOf c) := onesBelow_add c 8 le_rfl
  have hlow : onesBelow c (0 + 8) = 0 + popcount (parityOf c) := onesBelow_add c 0 le_rfl
  rw [Nat.zero_add, Nat.zero_add] at hlow
  rw [popcount, hhigh, hlow, Nat.add_comm]

theorem parity_eq_xor_halves (c : Codeword) : parity c = (parity (dataOf c) ^^ parity (parityOf c)) := by
  simp only [parity_eq_bodd_popcount, popcount_eq_add_halves c, Nat.bodd_add]

theorem dataOf_and (c e : Codeword) : dataOf (c &&& e) = dataOf c &&& dataOf e :=
  eq_of_atPosition fun i => by simp

theorem parityOf_and (c e : Codeword) : parityOf (c &&& e) = parityOf c &&& parityOf e :=
  eq_of_atPosition fun j => by simp

theorem onehot8_and (j : Fin 8) (v : BitVec 8) : onehot8 j &&& v = if atPosition v j then onehot8 j else 0 :=
  eq_of_atPosition fun m => by
    rw [atPosition_and, atPosition_onehot8, apply_ite (atPosition · m), atPosition_onehot8, atPosition_zero]
    rcases eq_or_ne j m with rfl | hm
    · cases atPosition v j <;> simp
    · rw [decide_eq_false hm, Bool.false_and, ite_self]

/-- A one-hot byte selects one position. -/
theorem parity_onehot8_and (j : Fin 8) (v : BitVec 8) : parity (onehot8 j &&& v) = atPosition v j := by
  have hone : ∀ j : Fin 8, parity (onehot8 j) = true := by decide
  have hzero : parity (0 : BitVec 8) = false := rfl
  rw [onehot8_and, apply_ite parity, hone, hzero]
  cases atPosition v j <;> rfl

/-! ## par(d) (R140) -/

section Par

variable (h : HData)

@[simp] theorem atPosition_par (d : DataWord) (j : Fin 8) : atPosition (par h d) j = parity (dataOf (row h j) &&& d) :=
  atPosition_ofPositions _ j

/-- p_j is the XOR over i of H[j][i] AND d⟨i⟩. -/
theorem atPosition_par_eq_foldl (d : DataWord) (j : Fin 8) : atPosition (par h d) j =
    (List.finRange 8).foldl (fun x i => x ^^ (entry h j ⟨i.val, by omega⟩ && atPosition d i)) false := by
  rw [atPosition_par, parity_eq_foldl_atPosition]
  simp only [atPosition_and, atPosition_dataOf, atPosition_row]

/-- par(d) is the XOR of the columns where d has a 1: position j of that XOR collects the entries of row j. -/
theorem par_eq_foldl_col (d : DataWord) : par h d =
    (List.finRange 8).foldl (fun x i => if atPosition d i then x ^^^ col h ⟨i.val, by omega⟩ else x) 0 :=
  eq_of_atPosition fun j => by
    rw [atPosition_par_eq_foldl, ← List.foldl_hom (fun x => atPosition x j), atPosition_zero]
    intro x i
    cases atPosition d i <;> simp

theorem par_xor (a b : DataWord) : par h (a ^^^ b) = par h a ^^^ par h b :=
  eq_of_atPosition fun j => by
    have hdistrib (r : DataWord) : r &&& (a ^^^ b) = (r &&& a) ^^^ (r &&& b) :=
      eq_of_atPosition fun i => by simp [Bool.and_xor_distrib_left]
    rw [atPosition_xor, atPosition_par, atPosition_par, atPosition_par, hdistrib, parity_xor]

theorem par_zero : par h 0 = 0 := by
  simpa using par_xor h 0 0

end Par

/-! ## Codewords: data, then parity bits (R141, R145) -/

section Codewords

variable (h : HData)

@[simp] theorem dataOf_enc (d : DataWord) : dataOf (enc h d) = d := BitVec.extractLsb'_append_eq_left

@[simp] theorem parityOf_enc (d : DataWord) : parityOf (enc h d) = par h d := BitVec.extractLsb'_append_eq_right

theorem enc_xor (a b : DataWord) : enc h (a ^^^ b) = enc h a ^^^ enc h b := by
  rw [enc, par_xor, ← BitVec.xor_append]
  rfl

theorem enc_injective : Function.Injective (enc h) := Function.LeftInverse.injective (dataOf_enc h)

theorem enc_zero : enc h 0 = 0 := by
  rw [enc, par_zero]
  rfl

/-- The distance of two codewords is the weight of a third. -/
theorem distance_enc_bound_iff (m : Nat) : (∀ a b, a ≠ b → m ≤ popcount (enc h a ^^^ enc h b)) ↔
    ∀ d, d ≠ 0 → m ≤ popcount (enc h d) := by
  refine ⟨fun hdist d hd => ?_, fun hweight a b hab => ?_⟩
  · have hle := hdist d 0 hd
    rwa [← enc_xor, show d ^^^ 0 = d from BitVec.xor_zero] at hle
  · rw [← enc_xor]
    exact hweight _ fun hzero => hab (BitVec.xor_eq_zero_iff.1 hzero)

theorem popcount_enc (d : DataWord) : popcount (enc h d) = popcount d + popcount (par h d) := by
  rw [popcount_eq_add_halves, dataOf_enc, parityOf_enc]

end Codewords

/-! ## Two matrices of different least weight (R145) -/

/-- The data block that repeats the data word as its parity bits: the identity. -/
def repeatingMatrix : HData := Vector.ofFn onehot8

theorem par_repeatingMatrix (d : DataWord) : par repeatingMatrix d = d :=
  eq_of_atPosition fun j => by
    have hrow : repeatingMatrix[j] = onehot8 j := Vector.getElem_ofFn _
    rw [atPosition_par, dataOf_row, hrow, parity_onehot8_and]

theorem two_le_popcount_enc_repeatingMatrix {d : DataWord} (hd : d ≠ 0) : 2 ≤ popcount (enc repeatingMatrix d) := by
  have hpos := popcount_pos hd
  rw [popcount_enc, par_repeatingMatrix]
  omega

theorem popcount_enc_zeroMatrix : popcount (enc (Vector.replicate 8 0) 1) = 1 := by decide +kernel

/-! ## The syndrome of a codeword (R144, R181) -/

/-- The syndrome compares the parity bits received with those of the data received. -/
theorem syn_eq_par_xor_parityOf (h : HData) (c : Codeword) : syn h c = par h (dataOf c) ^^^ parityOf c :=
  eq_of_atPosition fun j => by
    rw [syn, atPosition_ofPositions, parity_eq_xor_halves, dataOf_and, parityOf_and, parityOf_row, parity_onehot8_and,
      atPosition_xor, atPosition_par]

theorem syn_enc (h : HData) (d : DataWord) : syn h (enc h d) = 0 := by
  rw [syn_eq_par_xor_parityOf, dataOf_enc, parityOf_enc, BitVec.xor_self]
  rfl

/-! ## ENC and ENCW in each case of their operands (R142, R143) -/

theorem codePointOperand_of_le {v : Nat} (hv : v ≤ 255) : codePointOperand v = .ok (BitVec.ofNat 8 v) := if_pos hv

theorem codePointOperand_of_lt {v : Nat} (hv : 255 < v) : codePointOperand v = .error .invalidInput :=
  if_neg (Nat.not_le.2 hv)

section Encode

variable (s : State) {k v : Nat}

theorem wordOperand_of_lt (hk : k < s.nWords) : wordOperand s k = .ok k := if_pos hk

theorem wordOperand_of_le (hk : s.nWords ≤ k) : wordOperand s k = .error .indexRange := if_neg (Nat.not_lt.2 hk)

theorem exec_enc_of_le (hv : v ≤ 255) :
    exec (.enc v) s = .next (okState s (zext32 (enc s.hData (BitVec.ofNat 8 v)))) := by
  rw [exec, execEnc, codePointOperand_of_le hv]
  rfl

theorem exec_enc_of_lt (hv : 255 < v) : exec (.enc v) s = .next (errState s 3) := by
  rw [exec, execEnc, codePointOperand_of_lt hv]
  rfl

theorem exec_encw_of_lt_of_le (hk : k < s.nWords) (hv : v ≤ 255) :
    exec (.encw k v) s = .next (okState (s.writeTx k (enc s.hData (BitVec.ofNat 8 v)))
      (zext32 (enc s.hData (BitVec.ofNat 8 v)))) := by
  rw [exec_encw, encwOperands, wordOperand_of_lt s hk, codePointOperand_of_le hv]
  rfl

theorem exec_encw_of_le (hk : s.nWords ≤ k) : exec (.encw k v) s = .next (errState s 2) := by
  rw [exec_encw, encwOperands, wordOperand_of_le s hk]
  rfl

theorem exec_encw_of_lt_of_lt (hk : k < s.nWords) (hv : 255 < v) : exec (.encw k v) s = .next (errState s 3) := by
  rw [exec_encw, encwOperands, wordOperand_of_lt s hk, codePointOperand_of_lt hv]
  rfl

end Encode

end Sys2Proof.Machine

namespace Sys2Proof

open Sys2Proof.Machine

/-! ## The obligations -/

/-- Settles O31: both halves of a codeword, and both forms of its parity bits. -/
theorem encodedWordIsDataThenParity : Obligations.EncodedWordIsDataThenParity := fun h d =>
  ⟨dataOf_enc h d, parityOf_enc h d, atPosition_par h d, atPosition_par_eq_foldl h d, par_eq_foldl_col h d, par_zero h⟩

/-- Settles O32: the parity bits of a codeword are those of its data, so they cancel in the syndrome. -/
theorem encodedWordsHaveZeroSyndrome : Obligations.EncodedWordsHaveZeroSyndrome := syn_enc

/-- Settles O33: least weight 2 or more with the identity as data block, 1 with the zero block. -/
theorem encodingIsLinearAndInjective : Obligations.EncodingIsLinearAndInjective := by
  refine ⟨fun h a b => ⟨enc_xor h a b, fun hab => enc_injective h hab⟩, enc_zero, distance_enc_bound_iff,
    repeatingMatrix, Vector.replicate 8 0, 2, fun d => two_le_popcount_enc_repeatingMatrix, fun hweight => ?_⟩
  have htwo := hweight 1 (by decide)
  rw [popcount_enc_zeroMatrix] at htwo
  exact absurd htwo (by decide)

/-- Settles O34: the two cases of the code point. -/
theorem encAnswersTheCodeword : Obligations.EncAnswersTheCodeword := fun s _ =>
  ⟨exec_enc_of_le s, exec_enc_of_lt s⟩

/-- Settles O35: the cases of the operands; TX after the write reads as the laws of the storage say. -/
theorem encwWritesTheCodewordToTx : Obligations.EncwWritesTheCodewordToTx := fun s k _ =>
  ⟨fun hk hv => ⟨s.tx.write k _, exec_encw_of_lt_of_le s hk hv, s.tx.read?_write_same k _,
      fun _ hk' => s.tx.read?_write_other _ hk', Memory.wf_write k _⟩,
    exec_encw_of_le s, exec_encw_of_lt_of_lt s⟩

end Sys2Proof

/-! # The noise injector: draws, INJ and the flip log -/

namespace Sys2Proof.Machine

/-! ## Every sequence that R161 admits is a draw -/

/-- A draw that R161 admits is the next draw when it is supplied (log entry 6). -/
theorem State.draw_of_supplied (s : State) {q : List Nat} {n m : Nat} (h : ValidDraw q n m) :
    ({ s with draws := q :: s.draws } : State).draw n m = q := if_pos h

/-- A free draw of n members makes the choices below n alone. -/
theorem takeFrom_congr {choice choice' : Nat → Nat} {n : Nat} (h : ∀ t < n, choice t = choice' t)
    (pool : List Nat) : takeFrom choice pool n = takeFrom choice' pool n := by
  induction n generalizing pool with
  | zero => cases pool <;> rfl
  | succ n ih =>
    cases pool with
    | nil => rfl
    | cons p ps => rw [takeFrom, takeFrom, h n n.lt_succ_self, ih fun t ht => h t (Nat.lt_succ_of_lt ht)]

/-- Choosing the place of x takes x out of the pool. -/
theorem takeFrom_of_choice_eq_idxOf {choice : Nat → Nat} {pool : List Nat} {x n : Nat} (hx : x ∈ pool)
    (hc : choice n = pool.idxOf x) : takeFrom choice pool (n + 1) = x :: takeFrom choice (pool.erase x) n := by
  cases pool with
  | nil => cases hx
  | cons p ps =>
    have hlt : (p :: ps).idxOf x < (p :: ps).length := List.idxOf_lt_length_of_mem hx
    have hmod : choice n % (ps.length + 1) = (p :: ps).idxOf x := by rw [hc]; exact Nat.mod_eq_of_lt hlt
    rw [takeFrom, hmod, List.eraseIdx_idxOf_eq_erase, ← List.getElem_eq_getD p (h := hlt), List.getElem_idxOf hlt]

/-- Some choices take any given members of the pool, in the given order, when none is given twice. -/
theorem exists_takeFrom_eq {pool q : List Nat} (hq : q.Nodup) (hsub : ∀ p ∈ q, p ∈ pool) :
    ∃ choice : Nat → Nat, takeFrom choice pool q.length = q := by
  induction q generalizing pool with
  | nil => exact ⟨id, by cases pool <;> rfl⟩
  | cons x xs ih =>
    obtain ⟨hx, hxs⟩ := List.nodup_cons.1 hq
    obtain ⟨hmem, hrest⟩ := List.forall_mem_cons.1 hsub
    obtain ⟨choice, hchoice⟩ := ih hxs fun p hp =>
      (List.mem_erase_of_ne (ne_of_mem_of_not_mem hp hx)).2 (hrest p hp)
    have hkeep : ∀ t < xs.length, Function.update choice xs.length (pool.idxOf x) t = choice t := fun t ht =>
      Function.update_of_ne ht.ne _ _
    refine ⟨Function.update choice xs.length (pool.idxOf x), ?_⟩
    rw [List.length_cons, takeFrom_of_choice_eq_idxOf hmem (Function.update_self ..), takeFrom_congr hkeep, hchoice]

/-! ## The draws of no position and of all positions -/

theorem State.draw_zero (s : State) (m : Nat) : s.draw 0 m = [] :=
  List.eq_nil_of_length_eq_zero (s.draw_valid m.zero_le).1

/-- A draw of as many positions as the space has is all of them. -/
theorem ValidDraw.mem_of_lt {q : List Nat} {m p : Nat} (h : ValidDraw q m m) (hp : p < m) : p ∈ q := by
  obtain ⟨hlen, hnodup, hlt⟩ := h
  have hsub : q.Subperm (List.range m) := List.subperm_of_subset hnodup fun p hp => List.mem_range.2 (hlt p hp)
  have hperm : q.Perm (List.range m) := hsub.perm_of_length_le (by simp [hlen])
  exact hperm.mem_iff.2 (List.mem_range.2 hp)

/-! ## The mask of a word (R160, R164) -/

@[simp] theorem atPosition_onehot16 : ∀ m b : Fin 16, atPosition (onehot16 m) b = decide (m = b) := by decide

theorem atPosition_flipMask {q : List Nat} (hq : q.Nodup) (k : Nat) (b : Fin 16) :
    atPosition (flipMask q k) b = true ↔ 16 * k + b.val ∈ q := by
  induction q with
  | nil => rw [flipMask, atPosition_zero]; simp
  | cons p ps ih =>
    obtain ⟨hp, hps⟩ := List.nodup_cons.1 hq
    rw [flipMask, List.mem_cons, ← ih hps]
    by_cases hk : p / 16 = k
    · rw [if_pos hk, atPosition_xor, atPosition_onehot16]
      by_cases hb : p % 16 = b.val
      · have heq : 16 * k + b.val = p := by omega
        have hnew : atPosition (flipMask ps k) b = false := Bool.eq_false_iff.2 fun h => hp (heq ▸ (ih hps).1 h)
        simp [heq, hnew, hb]
      · have hne : 16 * k + b.val ≠ p := by omega
        simp [hne, Fin.ext_iff, hb]
    · have hne : 16 * k + b.val ≠ p := by omega
      rw [if_neg hk]
      simp [hne]

theorem flipMask_of_all {q : List Nat} {k : Nat} (hq : q.Nodup) (hall : ∀ b < 16, 16 * k + b ∈ q) :
    flipMask q k = 0xFFFF :=
  eq_of_atPosition fun b => by
    have hones : ∀ b : Fin 16, atPosition (0xFFFF : Codeword) b = true := by decide
    rw [(atPosition_flipMask hq k b).2 (hall b b.isLt), hones]

/-! ## The weight of a mask (R165) -/

/-- Words with no common 1 add their weights. -/
theorem popcount_xor_of_disjoint {w : Nat} {v u : BitVec w} (h : v &&& u = 0) :
    popcount (v ^^^ u) = popcount v + popcount u := by
  have hbelow (n : Nat) : onesBelow (v ^^^ u) n = onesBelow v n + onesBelow u n := by
    induction n with
    | zero => rfl
    | succ n ih =>
      have hbit : (v.getLsbD n && u.getLsbD n) = false := by
        rw [← BitVec.getLsbD_and, h]
        exact BitVec.getLsbD_zero
      have hadd : (v.getLsbD n ^^ u.getLsbD n).toNat = (v.getLsbD n).toNat + (u.getLsbD n).toNat := by
        cases hv : v.getLsbD n <;> cases hu : u.getLsbD n <;> simp_all
      rw [onesBelow, onesBelow, onesBelow, ih, BitVec.getLsbD_xor, hadd]
      omega
  exact hbelow w

theorem and_onehot16_eq_zero {v : Codeword} {i : Fin 16} (h : atPosition v i = false) : v &&& onehot16 i = 0 :=
  eq_of_atPosition fun b => by
    rw [atPosition_and, atPosition_onehot16, atPosition_zero]
    rcases eq_or_ne i b with rfl | hne
    · rw [h, Bool.false_and]
    · rw [decide_eq_false hne, Bool.and_false]

theorem popcount_onehot16 : ∀ i : Fin 16, popcount (onehot16 i) = 1 := by decide

/-- The mask of a word flips as many bits as the draw has positions of the word. -/
theorem popcount_flipMask {q : List Nat} (hq : q.Nodup) (k : Nat) :
    popcount (flipMask q k) = (q.map (· / 16)).count k := by
  induction q with
  | nil =>
    have hzero : popcount (0 : Codeword) = 0 := by decide
    rw [flipMask, hzero, List.map_nil, List.count_nil]
  | cons p ps ih =>
    obtain ⟨hp, hps⟩ := List.nodup_cons.1 hq
    rw [flipMask, List.map_cons]
    by_cases hk : p / 16 = k
    · have hnew : atPosition (flipMask ps k) ⟨p % 16, Nat.mod_lt p (by decide)⟩ = false := by
        rw [Bool.eq_false_iff, ne_eq, atPosition_flipMask hps, ← hk, Nat.div_add_mod]
        exact hp
      rw [if_pos hk, popcount_xor_of_disjoint (and_onehot16_eq_zero hnew), popcount_onehot16, ih hps, hk,
        List.count_cons_self]
    · rw [if_neg hk, ih hps, List.count_cons_of_ne hk]

/-- When f lists a draw, bit b of word k is drawn exactly when an entry of f names it (R164). -/
theorem mem_map_range_iff_word_bit {f : Nat → Nat} {n k : Nat} (b : Fin 16) :
    16 * k + b.val ∈ (List.range n).map f ↔ ∃ e, e < n ∧ f e / 16 = k ∧ f e % 16 = b.val := by
  simp only [List.mem_map, List.mem_range]
  refine exists_congr fun e => and_congr_right fun _ => ?_
  omega

/-- When f lists a draw, the positions of word k are as many as the entries of f that name it (R164). -/
theorem count_word_map_range (f : Nat → Nat) (n k : Nat) :
    (((List.range n).map f).map (· / 16)).count k = ((List.range n).filter fun e => decide (f e / 16 = k)).length := by
  rw [List.map_map, List.count_eq_countP, List.countP_map, List.countP_eq_length_filter]
  rfl

/-- The words of a batch share out the positions drawn in it. -/
theorem sum_count_word {q : List Nat} {l : Nat} (hq : ∀ p ∈ q, p < 16 * l) :
    ((List.range l).map fun k => (q.map (· / 16)).count k).sum = q.length := by
  have hwords : ∀ w ∈ ((q.map (· / 16) : List Nat) : Multiset Nat), w ∈ Finset.range l := fun w hw => by
    obtain ⟨p, hp, rfl⟩ := List.mem_map.1 hw
    exact Finset.mem_range.2 (Nat.div_lt_of_lt_mul (hq p hp))
  have hsum := Multiset.sum_count_eq_card hwords
  simp only [Multiset.coe_count, Multiset.coe_card, List.length_map] at hsum
  exact hsum

/-! ## INJ on a written batch, and what it leaves in RX and LOG (R160) -/

theorem getElem?_corrupt (q : List Nat) (k : Nat) (cs : List Codeword) (j : Nat) :
    (corrupt q k cs)[j]? = cs[j]?.map (· ^^^ flipMask q (k + j)) := by
  induction cs generalizing k j with
  | nil => rfl
  | cons c cs ih =>
    cases j with
    | zero => rfl
    | succ j => rw [corrupt, List.getElem?_cons_succ, List.getElem?_cons_succ, ih, Nat.add_right_comm, Nat.add_assoc]

/-- An INJ whose operands are in range and whose batch was written injects. -/
theorem exec_inj_of_written {s : State} {l n : Nat} (hl : l ≤ s.nWords) (hn : n ≤ 16 * l)
    (hw : ∀ k < l, s.txw k = true) :
    ∃ cs, Memory.readFrom s.tx 0 l = some cs ∧ exec (.inj l n) s = .next (inject (s.draw n (16 * l)) n cs s) := by
  have hsome : (Memory.readFrom s.tx 0 l).isSome = true :=
    Memory.readFrom_isSome.2 fun k hk => by rw [Nat.zero_add]; exact hw k hk
  obtain ⟨cs, hr⟩ := Option.isSome_iff_exists.1 hsome
  have hop : batchOperands s l n = .ok (l, n) := by rw [batchOperands, if_pos hl, if_pos hn]
  exact ⟨cs, hr, by simp only [exec, execInj, hop, hr]⟩

/-- An INJ that succeeds injected a batch that was written. -/
theorem exec_inj_of_success {s t : State} {l n : Nat} (h : exec (.inj l n) s = .next t) (hok : t.stat.err = false) :
    l ≤ s.nWords ∧ n ≤ 16 * l ∧
      ∃ cs, Memory.readFrom s.tx 0 l = some cs ∧ t = inject (s.draw n (16 * l)) n cs s := by
  rcases exec_inj_cases h with ⟨e, rfl⟩ | hinj
  · cases hok
  · exact hinj

section InjectedBatch

variable (q : List Nat) (n : Nat) {l k : Nat} {cs : List Codeword} {s : State}

theorem read?_inject_rx_of_lt (hr : Memory.readFrom s.tx 0 l = some cs) (hk : k < l) :
    ∃ c, s.tx.read? k = some c ∧ (inject q n cs s).rx.read? k = some (c ^^^ flipMask q k) := by
  obtain ⟨hlen, hread⟩ := Memory.readFrom_eq_some.1 hr
  have hkc : k < cs.length := hlen ▸ hk
  have htx : s.tx.read? k = some cs[k] := by simpa [hkc] using hread k hk
  refine ⟨cs[k], htx, ?_⟩
  rw [inject_rx, Memory.read?_writeFrom, if_pos (by simp [hkc]), getElem?_corrupt]
  simp [hkc]

theorem read?_inject_rx_of_le (hr : Memory.readFrom s.tx 0 l = some cs) (hk : l ≤ k) :
    (inject q n cs s).rx.read? k = s.rx.read? k := by
  obtain ⟨hlen, -⟩ := Memory.readFrom_eq_some.1 hr
  simp [Memory.read?_writeFrom, hlen, Nat.not_lt.2 hk]

theorem read?_inject_log_of_le (cs : List Codeword) (s : State) {e : Nat} (he : q.length ≤ e) :
    (inject q n cs s).log.read? e = s.log.read? e := by
  simp [Memory.read?_writeFrom, Nat.not_lt.2 he]

/-- RX[k] XOR TX[k] is the mask of word k. -/
theorem inject_rx_xor_tx (hr : Memory.readFrom s.tx 0 l = some cs) (hk : k < l) :
    ∃ x y, (inject q n cs s).tx.read? k = some x ∧ (inject q n cs s).rx.read? k = some y ∧
      y ^^^ x = flipMask q k := by
  obtain ⟨c, htx, hrx⟩ := read?_inject_rx_of_lt q n hr hk
  exact ⟨c, _, htx, hrx, by rw [BitVec.xor_comm c, BitVec.xor_assoc, BitVec.xor_self, BitVec.xor_zero]⟩

/-- The log entries after an INJ are the positions of its draw, in order (R164). -/
theorem map_logEntry_inject {q : List Nat} (cs : List Codeword) (s : State) (hq : ∀ p ∈ q, p < 65536) :
    (List.range q.length).map (fun e => ((inject q n cs s).logEntry e).toNat) = q := by
  refine List.ext_getElem (by simp) fun e he he' => ?_
  rw [List.getElem_map, List.getElem_range, State.logEntry, read?_inject_log q n cs s he', Option.getD_some,
    toNat_logWord (hq _ (List.getElem_mem he'))]

end InjectedBatch

/-! ## LOGRD in each case of its operand (R163) -/

theorem exec_logrd_of_lt (s : State) {e : Nat} (he : e < s.stat.logcnt.toNat) :
    exec (.logrd e) s = .next (okState s (zext32 (s.logEntry e))) := by
  have hop : logOperand s e = .ok e := if_pos he
  rw [exec, execLogrd, hop]
  rfl

theorem exec_logrd_of_le (s : State) {e : Nat} (he : s.stat.logcnt.toNat ≤ e) :
    exec (.logrd e) s = .next (errState s 2) := by
  have hop : logOperand s e = .error .indexRange := if_neg (Nat.not_lt.2 he)
  rw [exec, execLogrd, hop]
  rfl

/-- An entry that some INJ wrote is what it wrote (R45). -/
theorem State.logEntry_of_read? {s : State} {e : Nat} {v : BitVec 16} (h : s.log.read? e = some v) :
    s.logEntry e = v := by
  rw [State.logEntry, h, Option.getD_some]

end Sys2Proof.Machine

namespace Sys2Proof

open Sys2Proof.Machine

/-! ## The obligations -/

/-- Settles O47: both sources of a draw answer what R161 admits. -/
theorem drawsAreDistinctAndInRange : Obligations.DrawsAreDistinctAndInRange := fun s _ _ h => s.draw_valid h

/-- Settles O48: supplied, the sequence is the draw; made freely, each choice names the place of its next member. -/
theorem everyDrawIsPossible : Obligations.EveryDrawIsPossible := by
  intro q n m hlen hnodup hlt
  subst hlen
  exact ⟨fun s => s.draw_of_supplied ⟨rfl, hnodup, hlt⟩,
    exists_takeFrom_eq hnodup fun p hp => List.mem_range.2 (hlt p hp)⟩

/-- Settles O49: INJ injects, and RX and LOG after that read as the laws of the storage say. -/
theorem injCorruptsTheBatch : Obligations.InjCorruptsTheBatch := by
  intro s l n hmax hl hn hw
  obtain ⟨cs, hr, hexec⟩ := exec_inj_of_written hl hn hw
  obtain ⟨hlen, -, -⟩ := s.draw_valid hn
  refine ⟨_, _, hexec, s.stat.toNat_setLogcnt (by omega), fun k => read?_inject_rx_of_lt _ n hr,
    fun k => read?_inject_rx_of_le _ n hr, fun t ht => ?_,
    fun e he => read?_inject_log_of_le _ n cs s (hlen.trans_le he)⟩
  have htq : t < (s.draw n (16 * l)).length := ht.trans_eq hlen.symm
  exact ⟨_, List.getElem?_eq_getElem htq, read?_inject_log _ n cs s htq⟩

/-- Settles O50: by induction on the draw. -/
theorem flipMaskHasTheDrawnPositions : Obligations.FlipMaskHasTheDrawnPositions := fun _ k hq =>
  atPosition_flipMask hq k

/-- Settles O51: the draw of no position has empty masks, and that of every position full ones. -/
theorem noFlipsCopyAndAllFlipsInvert : Obligations.NoFlipsCopyAndAllFlipsInvert := by
  refine fun s t l => ⟨fun h hok k hk => ?_, fun h hok k hk => ?_⟩
  · obtain ⟨-, -, cs, hr, rfl⟩ := exec_inj_of_success h hok
    obtain ⟨c, htx, hrx⟩ := read?_inject_rx_of_lt (s.draw 0 (16 * l)) 0 hr hk
    have hmask : flipMask (s.draw 0 (16 * l)) k = 0#16 := by rw [s.draw_zero]; rfl
    rw [hmask, BitVec.xor_zero] at hrx
    exact ⟨hrx.trans htx.symm, by rw [State.rxw_eq, Memory.written, hrx]; rfl⟩
  · obtain ⟨-, hn, cs, hr, rfl⟩ := exec_inj_of_success h hok
    have hdraw := s.draw_valid hn
    have ⟨_, hnodup, _⟩ := hdraw
    have hmask : flipMask (s.draw (16 * l) (16 * l)) k = 0xFFFF :=
      flipMask_of_all hnodup fun b hb => ValidDraw.mem_of_lt hdraw (by omega)
    rw [← hmask]
    exact read?_inject_rx_of_lt _ _ hr hk

/-- Settles O52: the log is the draw, the bits that differ in word k are the mask of word k, and a mask has the drawn
positions of its word. -/
theorem injFlipsExactlyTheLoggedBits : Obligations.InjFlipsExactlyTheLoggedBits := by
  intro s t l n hmax h hok
  obtain ⟨hl, hn, cs, hr, rfl⟩ := exec_inj_of_success h hok
  obtain ⟨hlen, hnodup, hlt⟩ := s.draw_valid hn
  generalize s.draw n (16 * l) = q at *
  subst hlen
  have hlog := map_logEntry_inject q.length cs s fun p hp => (hlt p hp).trans (by omega)
  generalize ht : inject q q.length cs s = t at *
  have hxor (k : Nat) (hk : k < l) :
      ∃ x y, t.tx.read? k = some x ∧ t.rx.read? k = some y ∧ y ^^^ x = flipMask q k :=
    ht ▸ inject_rx_xor_tx q q.length hr hk
  refine ⟨?count, fun e e' he he' heq => ?distinct, fun k hk => ?word, ?total⟩
  case count => rw [← ht]; exact s.stat.toNat_setLogcnt (by omega)
  case distinct =>
    exact List.inj_on_of_nodup_map (hlog.symm ▸ hnodup) (List.mem_range.2 he) (List.mem_range.2 he')
      (congrArg BitVec.toNat heq)
  case word =>
    obtain ⟨x, y, hx, hy, hmask⟩ := hxor k hk
    refine ⟨x, y, hx, hy, fun b => ?bits, ?weight⟩
    case bits => rw [hmask, atPosition_flipMask hnodup, ← mem_map_range_iff_word_bit, hlog]
    case weight => rw [hmask, popcount_flipMask hnodup, ← count_word_map_range, hlog]
  case total =>
    refine Eq.trans (congrArg List.sum (List.map_congr_left fun k hk => ?_)) (sum_count_word hlt)
    obtain ⟨x, y, hx, hy, hmask⟩ := hxor k (List.mem_range.1 hk)
    rw [hx, hy, Option.getD_some, Option.getD_some, hmask, popcount_flipMask hnodup]

/-- Settles O53: the two cases of the operand, and what a written entry is. -/
theorem logrdAnswersTheEntry : Obligations.LogrdAnswersTheEntry := fun s _ =>
  ⟨exec_logrd_of_lt s, fun _ => State.logEntry_of_read?, exec_logrd_of_le s⟩

end Sys2Proof

/-! # The syndrome decoder: syndromes, the scan of decode, SYN, DEC and DECW -/

namespace Sys2Proof.Machine

/-! ## Halves of a codeword (R72) -/

theorem eq_of_halves {c e : Codeword} (hdata : dataOf c = dataOf e) (hparity : parityOf c = parityOf e) : c = e := by
  have happend (x : Codeword) : dataOf x ++ parityOf x = x :=
    (BitVec.extractLsb'_append_extractLsb'_eq_extractLsb' rfl).trans BitVec.extractLsb'_eq_self
  rw [← happend c, hdata, hparity, happend]

theorem dataOf_xor (c e : Codeword) : dataOf (c ^^^ e) = dataOf c ^^^ dataOf e :=
  eq_of_atPosition fun i => by simp

theorem parityOf_xor (c e : Codeword) : parityOf (c ^^^ e) = parityOf c ^^^ parityOf e :=
  eq_of_atPosition fun j => by simp

theorem dataOf_onehot16_of_le : ∀ i : Fin 16, 8 ≤ i.val → dataOf (onehot16 i) = 0 := by decide

/-- A flip of a parity bit leaves the data (R187). -/
theorem dataOf_xor_onehot16_of_le (c : Codeword) {i : Fin 16} (hi : 8 ≤ i.val) :
    dataOf (c ^^^ onehot16 i) = dataOf c := by
  rw [dataOf_xor, dataOf_onehot16_of_le i hi]
  exact BitVec.xor_zero

theorem and_onehot16_eq_self {v : Codeword} {i : Fin 16} (h : atPosition v i = true) : v &&& onehot16 i = onehot16 i :=
  eq_of_atPosition fun b => by
    rw [atPosition_and, atPosition_onehot16]
    rcases eq_or_ne i b with rfl | hne
    · rw [h, Bool.true_and]
    · rw [decide_eq_false hne, Bool.and_false]

/-- A one-hot codeword selects one position. -/
theorem parity_and_onehot16 (v : Codeword) (i : Fin 16) : parity (v &&& onehot16 i) = atPosition v i := by
  have hone : ∀ i : Fin 16, parity (onehot16 i) = true := by decide
  cases hv : atPosition v i with
  | true => rw [and_onehot16_eq_self hv, hone]
  | false => rw [and_onehot16_eq_zero hv]; rfl

/-! ## syn(c) (R180, R181) -/

section Syndrome

variable (h : HData)

/-- Position j of the syndrome is the XOR over i of H[j][i] AND c⟨i⟩. -/
theorem atPosition_syn_eq_foldl (c : Codeword) (j : Fin 8) : atPosition (syn h c) j =
    (List.finRange 16).foldl (fun x i => x ^^ (entry h j i && atPosition c i)) false := by
  rw [syn, atPosition_ofPositions, parity_eq_foldl_atPosition]
  simp only [atPosition_and, atPosition_row]

theorem syn_eq_zero_iff (c : Codeword) : syn h c = 0 ↔ c = enc h (dataOf c) := by
  refine ⟨fun hzero => eq_of_halves (dataOf_enc h _).symm ?_, fun hc => by rw [hc, syn_enc]⟩
  rw [parityOf_enc]
  rw [syn_eq_par_xor_parityOf] at hzero
  exact (BitVec.xor_eq_zero_iff.1 hzero).symm

theorem syn_xor (a b : Codeword) : syn h (a ^^^ b) = syn h a ^^^ syn h b := by
  simp only [syn_eq_par_xor_parityOf, dataOf_xor, parityOf_xor, par_xor]
  ac_rfl

theorem syn_onehot16 (i : Fin 16) : syn h (onehot16 i) = col h i :=
  eq_of_atPosition fun j => by
    rw [syn, atPosition_ofPositions, parity_and_onehot16, atPosition_row, atPosition_col]

/-- A codeword with flips has the syndrome of its flips. -/
theorem syn_enc_xor (d : DataWord) (e : Codeword) : syn h (enc h d ^^^ e) = syn h e := by
  rw [syn_xor, syn_enc]
  exact BitVec.zero_xor

end Syndrome

/-! ## The class of a syndrome: the first match of the scan (R182) -/

section Classify

variable {h : HData} {s : Syndrome} {i j : Fin 16}

theorem classify_zero (h : HData) : classify h 0 = .noError := if_pos rfl

theorem classify_of_first_column (hs : s ≠ 0) (hi : s = col h i) (hfirst : ∀ i', i' < i → s ≠ col h i') :
    classify h s = .singleBitError i := by
  have hscan : positions.find? (fun i => decide (s = col h i)) = some i :=
    find?_positions_of_first (decide_eq_true hi) fun i' hlt => decide_eq_false (hfirst i' hlt)
  rw [classify, if_neg hs, hscan]

/-- Where no column matches, the scan of the pairs decides. -/
theorem classify_of_no_column (hs : s ≠ 0) (hcol : ∀ m, s ≠ col h m) : classify h s =
    ((pairs.find? fun p => decide (s = col h p.1 ^^^ col h p.2)).elim .unresolvable
      fun p => .doubleBitError p.1 p.2) := by
  have hscan : positions.find? (fun i => decide (s = col h i)) = none :=
    find?_positions_eq_none.2 fun m => decide_eq_false (hcol m)
  rw [classify, if_neg hs, hscan]
  cases pairs.find? fun p => decide (s = col h p.1 ^^^ col h p.2) <;> rfl

theorem classify_of_first_pair (hs : s ≠ 0) (hcol : ∀ m, s ≠ col h m) (hij : i < j) (hsum : s = col h i ^^^ col h j)
    (hfirst : ∀ i' j', i' < j' → (i' < i ∨ i' = i ∧ j' < j) → s ≠ col h i' ^^^ col h j') :
    classify h s = .doubleBitError i j := by
  have hscan : pairs.find? (fun p => decide (s = col h p.1 ^^^ col h p.2)) = some (i, j) :=
    find?_pairs_of_first hij (decide_eq_true hsum) fun i' j' hlt hb => decide_eq_false (hfirst i' j' hlt hb)
  rw [classify_of_no_column hs hcol, hscan, Option.elim_some]

theorem classify_of_no_match (hs : s ≠ 0) (hcol : ∀ m, s ≠ col h m)
    (hpair : ∀ i j, i < j → s ≠ col h i ^^^ col h j) : classify h s = .unresolvable := by
  have hscan : pairs.find? (fun p => decide (s = col h p.1 ^^^ col h p.2)) = none :=
    find?_pairs_eq_none.2 fun i j hij => decide_eq_false (hpair i j hij)
  rw [classify_of_no_column hs hcol, hscan, Option.elim_none]

/-- Every column is the first match of itself exactly when the columns are non-zero and distinct (R190). -/
theorem columnsDistinct_iff_classify : ColumnsDistinct h ↔ ∀ i, classify h (col h i) = .singleBitError i := by
  refine ⟨fun ⟨hne, hinj⟩ i => ?_, fun hclass => ⟨fun i hzero => ?_, fun i j heq => ?_⟩⟩
  · exact classify_of_first_column (hne i) rfl fun i' hlt heq => hlt.ne' (hinj i i' heq)
  · have hi := hclass i
    rw [hzero, classify_zero] at hi
    cases hi
  · have hi := hclass i
    rw [heq, hclass j] at hi
    cases hi
    rfl

/-- With distinct non-zero columns, every pair is the first match of its sum exactly when the sums are distinct from each
other and from the columns (R191). -/
theorem pairSumsDistinct_iff_classify (hc : ColumnsDistinct h) : PairSumsDistinct h ↔
    ∀ i j, i < j → classify h (col h i ^^^ col h j) = .doubleBitError i j := by
  refine ⟨fun ⟨hcol, hinj⟩ i j hij => ?_, fun hclass => ⟨fun i j m hij heq => ?_, fun i j i' j' hij hij' heq => ?_⟩⟩
  · have hne : col h i ^^^ col h j ≠ 0 := fun hzero => hij.ne (hc.2 i j (BitVec.xor_eq_zero_iff.1 hzero))
    refine classify_of_first_pair hne (fun m => hcol i j m hij) hij rfl fun i' j' hij' hbefore heq => ?_
    obtain ⟨rfl, rfl⟩ := hinj i j i' j' hij hij' heq
    rcases hbefore with hlt | ⟨-, hlt⟩ <;> exact lt_irrefl _ hlt
  · have hm := hclass i j hij
    rw [heq, columnsDistinct_iff_classify.1 hc m] at hm
    cases hm
  · have hi := hclass i j hij
    rw [heq, hclass i' j' hij'] at hi
    cases hi
    exact ⟨rfl, rfl⟩

theorem selfcheck_ok_iff_columnsDistinct : (selfcheck h).ok = true ↔ ColumnsDistinct h := by
  rw [selfcheck_ok, ColumnsDistinct, not_exists]
  refine and_congr_right fun _ => ⟨fun hnone i j heq => ?_, fun hinj ⟨i, j, hij, heq⟩ => hij.ne (hinj i j heq)⟩
  rcases lt_trichotomy i j with hlt | rfl | hlt
  · exact absurd ⟨i, j, hlt, heq⟩ hnone
  · rfl
  · exact absurd ⟨j, i, hlt, heq.symm⟩ hnone

end Classify

/-! ## decode(c) (R182) -/

section Decode

variable {h : HData} {c : Codeword} {k : ErrorClass}

/-- The class decides the rest of the result. -/
theorem decodeWord_of_classify (hk : classify h (syn h c) = k) : decodeWord h c = ⟨k, dataOf (repair c k), syn h c⟩ := by
  subst hk
  rfl

theorem decodeWord_cls_data (hk : classify h (syn h c) = k) :
    (decodeWord h c).cls = k ∧ (decodeWord h c).data = dataOf (repair c k) := by
  rw [decodeWord_of_classify hk]
  exact ⟨rfl, rfl⟩

theorem decodeWord_data (h : HData) (c : Codeword) :
    (decodeWord h c).data = dataOf (repair c (decodeWord h c).cls) := rfl

theorem decodeWord_data_of_cls (hk : (decodeWord h c).cls = k) : (decodeWord h c).data = dataOf (repair c k) := by
  rw [decodeWord_data, hk]

theorem decodeWord_enc (h : HData) (d : DataWord) : decodeWord h (enc h d) = ⟨.noError, d, 0⟩ := by
  rw [decodeWord_of_classify (k := .noError) (by rw [syn_enc, classify_zero]), repair, dataOf_enc, syn_enc]

/-- Where the repair of class k undoes the flips e, a codeword with these flips decodes to its data as class k exactly
when the syndrome of e has that class. -/
theorem decodeWord_enc_xor_iff (d : DataWord) {e : Codeword} (hk : repair (enc h d ^^^ e) k = enc h d) :
    decodeWord h (enc h d ^^^ e) = ⟨k, d, syn h e⟩ ↔ classify h (syn h e) = k := by
  refine ⟨fun hdec => ?_, fun hclass => ?_⟩
  · rw [← syn_enc_xor h d e]
    exact congrArg Decoded.cls hdec
  · rw [decodeWord_of_classify (k := k) (by rw [syn_enc_xor, hclass]), hk, dataOf_enc, syn_enc_xor]

theorem xor_xor_cancel_right {w : Nat} (a b : BitVec w) : a ^^^ b ^^^ b = a := by
  rw [BitVec.xor_assoc, BitVec.xor_self, BitVec.xor_zero]

theorem decodeWord_single_flip_iff (d : DataWord) (i : Fin 16) :
    decodeWord h (enc h d ^^^ onehot16 i) = ⟨.singleBitError i, d, col h i⟩ ↔
      classify h (col h i) = .singleBitError i := by
  rw [← syn_onehot16, decodeWord_enc_xor_iff d]
  exact xor_xor_cancel_right ..

theorem decodeWord_double_flip_iff (d : DataWord) (i j : Fin 16) :
    decodeWord h (enc h d ^^^ onehot16 i ^^^ onehot16 j) = ⟨.doubleBitError i j, d, col h i ^^^ col h j⟩ ↔
      classify h (col h i ^^^ col h j) = .doubleBitError i j := by
  rw [← syn_onehot16, ← syn_onehot16, ← syn_xor, BitVec.xor_assoc, decodeWord_enc_xor_iff d]
  rw [repair, BitVec.xor_assoc, xor_xor_cancel_right]

end Decode

/-! ## The packed result (R183) -/

section Packed

variable (r : Decoded)

@[simp] theorem Decoded.toWord_data : r.toWord.extractLsb' 0 8 = r.data := by
  rw [Decoded.toWord, BitVec.extractLsb'_append_eq_of_add_le (by omega)]
  exact BitVec.extractLsb'_append_eq_right

@[simp] theorem Decoded.toWord_syndrome : r.toWord.extractLsb' 8 8 = r.syndrome := by
  rw [Decoded.toWord, BitVec.extractLsb'_append_eq_of_add_le (by omega)]
  exact BitVec.extractLsb'_append_eq_left

@[simp] theorem Decoded.toWord_p0 : r.toWord.extractLsb' 16 4 = positionField r.cls.p0 := by
  rw [Decoded.toWord, BitVec.extractLsb'_append_eq_of_le (by omega), BitVec.extractLsb'_append_eq_of_add_le (by omega)]
  exact BitVec.extractLsb'_append_eq_right

@[simp] theorem Decoded.toWord_p1 : r.toWord.extractLsb' 20 4 = positionField r.cls.p1 := by
  rw [Decoded.toWord, BitVec.extractLsb'_append_eq_of_le (by omega), BitVec.extractLsb'_append_eq_of_add_le (by omega)]
  exact BitVec.extractLsb'_append_eq_left

@[simp] theorem Decoded.toWord_number : r.toWord.extractLsb' 24 2 = r.cls.number := by
  rw [Decoded.toWord, BitVec.extractLsb'_append_eq_of_le (by omega), BitVec.extractLsb'_append_eq_of_le (by omega)]
  exact BitVec.extractLsb'_append_eq_right

@[simp] theorem Decoded.toWord_reserved : r.toWord.extractLsb' 26 6 = 0 := by
  rw [Decoded.toWord, BitVec.extractLsb'_append_eq_of_le (by omega), BitVec.extractLsb'_append_eq_of_le (by omega)]
  exact BitVec.extractLsb'_append_eq_left

end Packed

theorem repair_of_number_eq_one (c : Codeword) {k : ErrorClass} (hk : k.number = 1) :
    repair c k = c ^^^ onehot16 k.p0 := by
  cases k with
  | singleBitError i => rfl
  | noError => cases hk
  | doubleBitError i j => cases hk
  | unresolvable => cases hk

theorem repair_of_number_eq_two (c : Codeword) {k : ErrorClass} (hk : k.number = 2) :
    repair c k = c ^^^ onehot16 k.p0 ^^^ onehot16 k.p1 := by
  cases k with
  | doubleBitError i j => rfl
  | noError => cases hk
  | singleBitError i => cases hk
  | unresolvable => cases hk

/-! ## SYN, DEC and DECW in each case of their operand and of MOK (R184 to R186) -/

theorem exec_syn (s : State) (c : Codeword) : exec (.syn c) s = .next (okState s (zext32 (syn s.hData c))) := rfl

/-- Two successes with one result answer the same. -/
theorem okState_same_answer (s s' : State) {r r' : Word} (hr : r' = r) : (okState s' r').res = (okState s r).res ∧
    (okState s' r').stat.err = (okState s r).stat.err ∧ (okState s' r').stat.ecode = (okState s r).stat.ecode :=
  ⟨hr, rfl, rfl⟩

section Answers

variable {s : State} {c : Codeword} {k : Nat}

theorem matrixValid_of_mok (hm : s.stat.mok = true) : matrixValid s = .ok () := if_pos hm

theorem matrixValid_of_not_mok (hm : s.stat.mok = false) : matrixValid s = .error .matrixInvalid :=
  if_neg (Bool.eq_false_iff.1 hm)

theorem exec_dec_of_mok (c : Codeword) (hm : s.stat.mok = true) :
    exec (.dec c) s = .next (okState s (decres s.hData c)) := by
  rw [exec, execDec, matrixValid_of_mok hm]
  rfl

theorem exec_dec_of_not_mok (c : Codeword) (hm : s.stat.mok = false) : exec (.dec c) s = .next (errState s 5) := by
  rw [exec, execDec, matrixValid_of_not_mok hm]
  rfl

theorem exec_decw_of_le (hk : s.nWords ≤ k) : exec (.decw k) s = .next (errState s 2) := by
  rw [exec_decw, wordOperand_of_le s hk]
  rfl

theorem exec_decw_of_not_mok (hk : k < s.nWords) (hm : s.stat.mok = false) :
    exec (.decw k) s = .next (errState s 5) := by
  rw [exec_decw, wordOperand_of_lt s hk, matrixValid_of_not_mok hm]
  rfl

/-- A DECW that passes its checks reads RX[K]. -/
theorem exec_decw_of_mok (hk : k < s.nWords) (hm : s.stat.mok = true) :
    exec (.decw k) s = readThen s s.rx k (decres s.hData) := by
  rw [exec_decw, wordOperand_of_lt s hk, matrixValid_of_mok hm]
  rfl

theorem exec_decw_of_written (hk : k < s.nWords) (hm : s.stat.mok = true) (hc : s.rx.read? k = some c) :
    exec (.decw k) s = .next (okState s (decres s.hData c)) := by
  rw [exec_decw_of_mok hk hm, readThen, hc]
  rfl

theorem exec_decw_of_unwritten (hk : k < s.nWords) (hm : s.stat.mok = true) (hc : s.rx.read? k = none) :
    exec (.decw k) s = .fault .unwrittenRead := by
  rw [exec_decw_of_mok hk hm, readThen, hc]

end Answers

end Sys2Proof.Machine

namespace Sys2Proof

open Sys2Proof.Machine

/-! ## The obligations -/

/-- Settles O36: SYN is one success; a syndrome bit is the parity of a masked row. -/
theorem synAnswersTheSyndrome : Obligations.SynAnswersTheSyndrome := ⟨exec_syn, atPosition_syn_eq_foldl⟩

/-- Settles O37: the syndrome is the difference of the parity bits received and recomputed, half by half. -/
theorem syndromeFormsAgree : Obligations.SyndromeFormsAgree := fun h =>
  ⟨syn_eq_par_xor_parityOf h, syn_eq_zero_iff h, syn_xor h, syn_onehot16 h⟩

/-- Settles O38: the scan's outcome in each case is the class, and the class decides the data. -/
theorem decodeIsTheFirstMatchOfTheScan : Obligations.DecodeIsTheFirstMatchOfTheScan := fun h _ =>
  ⟨rfl,
    fun hzero => decodeWord_cls_data (hzero ▸ classify_zero h),
    fun _ hs hi hfirst => decodeWord_cls_data (classify_of_first_column hs hi hfirst),
    fun _ _ hs hcol hij hsum hfirst => decodeWord_cls_data (classify_of_first_pair hs hcol hij hsum hfirst),
    fun hs hcol hpair => decodeWord_cls_data (classify_of_no_match hs hcol hpair),
    rfl, rfl, rfl, rfl, fun _ _ => ⟨rfl, rfl, rfl, rfl⟩⟩

/-- Settles O39: field by field; CLASS 1 and 2 are the classes with one and two positions. -/
theorem decodeResultHasItsFields : Obligations.DecodeResultHasItsFields := by
  intro h c
  simp only [decres, Decoded.toWord_data, Decoded.toWord_syndrome, Decoded.toWord_p0, Decoded.toWord_p1,
    Decoded.toWord_number, Decoded.toWord_reserved, toNat_positionField, decodeWord_data]
  generalize (decodeWord h c).cls = k
  refine ⟨trivial, trivial, trivial, trivial, ?cls, trivial, fun hone => ?single, fun htwo => ?double⟩
  case cls => cases k <;> rfl
  case single => rw [repair_of_number_eq_one c hone]; exact ⟨rfl, rfl⟩
  case double => rw [repair_of_number_eq_two c htwo]; exact ⟨rfl, rfl⟩

/-- Settles O42: the flips that such a class undoes are at parity positions. -/
theorem parityFlipsNeverChangeTheData : Obligations.ParityFlipsNeverChangeTheData := by
  refine fun h c => ⟨fun i => dataOf_xor_onehot16_of_le c, fun i hi hcls => ?_, fun i j hi hj hcls => ?_⟩
  · rw [decodeWord_data_of_cls hcls, repair, dataOf_xor_onehot16_of_le c hi]
  · rw [decodeWord_data_of_cls hcls, repair, dataOf_xor_onehot16_of_le _ hj, dataOf_xor_onehot16_of_le c hi]

/-- Settles O43: a single flip decodes rightly exactly when its column is the first match of itself. -/
theorem singleErrorsAreCorrectedIffColumnsDistinct : Obligations.SingleErrorsAreCorrectedIffColumnsDistinct := by
  refine fun h => ⟨selfcheck_ok_iff_columnsDistinct, ?_⟩
  simp only [decodeWord_single_flip_iff, columnsDistinct_iff_classify, forall_const]

/-- Settles O44: a double flip decodes rightly exactly when its pair is the first match of its sum. -/
theorem doubleErrorsAreCorrectedIffPairSumsDistinct : Obligations.DoubleErrorsAreCorrectedIffPairSumsDistinct := by
  intro h hc
  simp only [decodeWord_double_flip_iff, pairSumsDistinct_iff_classify hc, forall_const]

/-- Settles O45: a codeword has zero syndrome. -/
theorem cleanCodewordsDecodeToTheirData : Obligations.CleanCodewordsDecodeToTheirData := decodeWord_enc

/-- Settles O40: the two values of MOK. -/
theorem decAnswersTheDecodeResult : Obligations.DecAnswersTheDecodeResult := fun _ c =>
  ⟨exec_dec_of_mok c, exec_dec_of_not_mok c⟩

/-- Settles O41: the cases of DECW's checks, in order. -/
theorem decwAnswersTheDecodeResultOfRx : Obligations.DecwAnswersTheDecodeResultOfRx := fun _ _ =>
  ⟨fun _ => exec_decw_of_written, exec_decw_of_le, exec_decw_of_not_mok, exec_decw_of_unwritten⟩

/-- Settles O46: both states are in the same case of DECW. -/
theorem decodingDependsOnTheWordAndHAlone : Obligations.DecodingDependsOnTheWordAndHAlone := by
  intro s s' t k hH hmok hn hread hexec
  rcases Nat.lt_or_ge k s.nWords with hk | hk
  · cases hm : s.stat.mok with
    | false =>
      rw [exec_decw_of_not_mok hk hm] at hexec
      cases hexec
      exact ⟨_, exec_decw_of_not_mok (hn ▸ hk) (hmok ▸ hm), rfl, rfl, rfl⟩
    | true =>
      cases hc : s.rx.read? k with
      | none =>
        rw [exec_decw_of_unwritten hk hm hc] at hexec
        cases hexec
      | some c =>
        rw [exec_decw_of_written hk hm hc] at hexec
        cases hexec
        exact ⟨_, exec_decw_of_written (hn ▸ hk) (hmok ▸ hm) (hread ▸ hc), okState_same_answer s s' (by rw [hH])⟩
  · rw [exec_decw_of_le hk] at hexec
    cases hexec
    exact ⟨_, exec_decw_of_le (hn ▸ hk), rfl, rfl, rfl⟩

end Sys2Proof

/-! # Buffer access and control: NOP, WRTX, RDTX and RDRX -/

namespace Sys2Proof.Machine

theorem Memory.read?_eq_none_of_not_written {m : Memory} {k : Nat} (h : m.written k = false) : m.read? k = none :=
  Option.isNone_iff_eq_none.1 (Option.isSome_eq_false_iff.1 h)

/-! ## Reading a buffer word in each case of its index (R51, R70, R83) -/

section Read

variable {s : State} {b : Memory} {k : Nat} {c : Codeword} (f : Codeword → Word)

theorem State.checkedRead_of_le (b : Memory) (hk : s.nWords ≤ k) :
    s.checkedRead (wordOperand s k) b f = .next (errState s 2) := by
  rw [wordOperand_of_le s hk]
  rfl

/-- A read that passes its index check reads the buffer. -/
theorem State.checkedRead_of_lt (b : Memory) (hk : k < s.nWords) :
    s.checkedRead (wordOperand s k) b f = readThen s b k f := by
  rw [wordOperand_of_lt s hk]
  rfl

theorem State.checkedRead_of_written (hk : k < s.nWords) (hc : b.read? k = some c) :
    s.checkedRead (wordOperand s k) b f = .next (okState s (f c)) := by
  rw [State.checkedRead_of_lt f b hk, readThen, hc]
  rfl

theorem State.checkedRead_of_unwritten (hk : k < s.nWords) (hc : b.written k = false) :
    s.checkedRead (wordOperand s k) b f = .fault .unwrittenRead := by
  rw [State.checkedRead_of_lt f b hk, readThen, Memory.read?_eq_none_of_not_written hc]

end Read

/-! ## NOP, and WRTX in each case of its index (R210, R211) -/

section Control

variable (s : State) {k : Nat} (c : Codeword)

theorem exec_nop : exec .nop s = .next (okState s 0) := rfl

theorem exec_wrtx_of_lt (hk : k < s.nWords) :
    exec (.wrtx k c) s = .next (okState (s.writeTx k c) (zext32 c)) := by
  rw [exec_wrtx, wordOperand_of_lt s hk]
  rfl

theorem exec_wrtx_of_le (hk : s.nWords ≤ k) : exec (.wrtx k c) s = .next (errState s 2) := by
  rw [exec_wrtx, wordOperand_of_le s hk]
  rfl

end Control

end Sys2Proof.Machine

namespace Sys2Proof

open Sys2Proof.Machine

/-! ## The obligations -/

/-- Settles O54: NOP is one success with result 0. -/
theorem nopAnswersZero : Obligations.NopAnswersZero := exec_nop

/-- Settles O55: the two cases of the index; TX after the write reads as the laws of the storage say. -/
theorem wrtxWritesTheWordToTx : Obligations.WrtxWritesTheWordToTx := fun s k c =>
  ⟨fun hk => ⟨s.tx.write k c, exec_wrtx_of_lt s c hk, s.tx.read?_write_same k c,
      fun _ hk' => s.tx.read?_write_other c hk', Memory.wf_write k c⟩,
    exec_wrtx_of_le s c⟩

/-- Settles O56: both are checked reads, of TX and of RX, in each case of the index and of the written bit. -/
theorem rdtxAndRdrxAnswerTheWord : Obligations.RdtxAndRdrxAnswerTheWord := by
  intro s k
  rw [exec_rdtx, exec_rdrx]
  exact ⟨fun hk _ => State.checkedRead_of_written zext32 hk, fun hk _ => State.checkedRead_of_written zext32 hk,
    fun hk => ⟨State.checkedRead_of_le zext32 s.tx hk, State.checkedRead_of_le zext32 s.rx hk⟩,
    State.checkedRead_of_unwritten zext32, State.checkedRead_of_unwritten zext32⟩

end Sys2Proof

/-! # Exceptions: which error a command answers, and what a failure changes -/

namespace Sys2Proof.Machine

theorem ErrCode.code_injective : Function.Injective ErrCode.code := by
  intro e e'
  cases e <;> cases e' <;> decide

/-! ## INJ in each case in which it does not inject (R160, R166) -/

section Inj

variable {s : State} {l n : Nat}

theorem exec_inj_of_gt (hl : s.nWords < l) : exec (.inj l n) s = .next (errState s 2) := by
  have hop : batchOperands s l n = .error .indexRange := if_neg (Nat.not_le.2 hl)
  rw [exec, execInj, hop]
  rfl

theorem exec_inj_of_capacity (hl : l ≤ s.nWords) (hn : 16 * l < n) :
    exec (.inj l n) s = .next (errState s 4) := by
  have hop : batchOperands s l n = .error .capacity := by rw [batchOperands, if_pos hl, if_neg (Nat.not_le.2 hn)]
  rw [exec, execInj, hop]
  rfl

theorem exec_inj_of_unwritten (hl : l ≤ s.nWords) (hn : n ≤ 16 * l) (hw : ¬ ∀ k < l, s.txw k = true) :
    exec (.inj l n) s = .fault .unwrittenRead := by
  have hop : batchOperands s l n = .ok (l, n) := by rw [batchOperands, if_pos hl, if_pos hn]
  have hr : Memory.readFrom s.tx 0 l = none := by
    refine Option.not_isSome_iff_eq_none.1 fun hsome => hw fun k hk => ?_
    simpa using Memory.readFrom_isSome.1 hsome k hk
  simp only [exec, execInj, hop, hr]

end Inj

end Sys2Proof.Machine

namespace Sys2Proof

open Sys2Proof.Machine

/-! ## The first cause of the error table (R230, R232) -/

/-- No cause of the error table applies (R230). -/
def NoCause (i : Instr) (s : State) : Prop := ∀ e, ¬ Causes i s e

/-- The cause of e applies, and the cause of no code before e (R232). -/
def FirstCause (i : Instr) (s : State) (e : ErrCode) : Prop :=
  Causes i s e ∧ ∀ e' : ErrCode, e'.code < e.code → ¬ Causes i s e'

section Causes

variable {i : Instr} {s : State} {e e' : ErrCode}

theorem FirstCause.unique (h : FirstCause i s e) (h' : FirstCause i s e') : e = e' :=
  ErrCode.code_injective (BitVec.le_antisymm (BitVec.not_lt.1 fun hlt => h.2 e' hlt h'.1)
    (BitVec.not_lt.1 fun hlt => h'.2 e hlt h.1))

theorem NoCause.not_firstCause (h : NoCause i s) : ¬ FirstCause i s e := fun he => h e he.1

/-- Each check of the error table that passes rules out its cause. -/
theorem noCause_of_checks (hres : ¬ Reserved i) (hidx : ¬ IndexOut s i) (hin : ¬ InputOut i)
    (hcap : ∀ l n, i = .inj l n → n ≤ 16 * l) (hdec : ∀ c, i = .dec c → s.stat.mok = true)
    (hdecw : ∀ k, i = .decw k → s.stat.mok = true) : NoCause i s
  | .illegalCmd, h => hres h
  | .indexRange, h => hidx h
  | .invalidInput, h => hin h
  | .capacity, ⟨l, n, hi, hn⟩ => Nat.not_le.2 hn (hcap l n hi)
  | .matrixInvalid, ⟨.inl ⟨c, hi⟩, hm⟩ => Bool.eq_false_iff.1 hm (hdec c hi)
  | .matrixInvalid, ⟨.inr ⟨k, hi⟩, hm⟩ => Bool.eq_false_iff.1 hm (hdecw k hi)

theorem firstCause_illegalCmd (h : Reserved i) : FirstCause i s .illegalCmd := by
  refine ⟨h, fun e' hlt => ?_⟩
  cases e' <;> exact absurd hlt (by decide)

theorem firstCause_indexRange (h : IndexOut s i) (hres : ¬ Reserved i) : FirstCause i s .indexRange := by
  refine ⟨h, fun e' hlt => ?_⟩
  cases e' with
  | illegalCmd => exact hres
  | _ => exact absurd hlt (by decide)

theorem firstCause_invalidInput (h : InputOut i) (hres : ¬ Reserved i) (hidx : ¬ IndexOut s i) :
    FirstCause i s .invalidInput := by
  refine ⟨h, fun e' hlt => ?_⟩
  cases e' with
  | illegalCmd => exact hres
  | indexRange => exact hidx
  | _ => exact absurd hlt (by decide)

theorem firstCause_capacity {l n : Nat} (h : 16 * l < n) (hl : l ≤ s.nWords) : FirstCause (.inj l n) s .capacity := by
  refine ⟨⟨l, n, rfl, h⟩, fun e' hlt => ?_⟩
  cases e' with
  | illegalCmd => exact id
  | indexRange => exact Nat.not_lt.2 hl
  | invalidInput => exact id
  | _ => exact absurd hlt (by decide)

theorem firstCause_matrixInvalid (h : (∃ c, i = .dec c) ∨ ∃ k, i = .decw k) (hidx : ¬ IndexOut s i)
    (hm : s.stat.mok = false) : FirstCause i s .matrixInvalid := by
  refine ⟨⟨h, hm⟩, fun e' hlt => ?_⟩
  rcases h with ⟨c, rfl⟩ | ⟨k, rfl⟩ <;> cases e' with
  | illegalCmd => exact id
  | indexRange => exact hidx
  | invalidInput => exact id
  | capacity => exact nofun
  | matrixInvalid => exact absurd hlt (by decide)

end Causes

/-! ## Every command follows the error table (R230, R232, R51) -/

/-- What the error table says of a command's outcome: the first cause is answered; when there is none the command succeeds or,
when a word it reads is unwritten, ends in the model fault. -/
inductive FollowsTable (i : Instr) (s : State) : Host.Outcome State Fault Refusal → Prop where
  | fails (e : ErrCode) (h : FirstCause i s e) : FollowsTable i s (.next (errState s e.code))
  | succeeds {t : State} (hc : NoCause i s) (hr : ReadsWritten s i) (ht : t.stat.err = false) :
      FollowsTable i s (.next t)
  | faults (hc : NoCause i s) (hr : ¬ ReadsWritten s i) : FollowsTable i s (.fault .unwrittenRead)

section Outcomes

variable {i : Instr} {s : State}

/-- A command with an index follows the table when it does so for an index in range: INDEX_RANGE comes before every other cause
it can have (R232). -/
theorem FollowsTable.of_index (hres : ¬ Reserved i) (hout : IndexOut s i → exec i s = .next (errState s 2))
    (hin : ¬ IndexOut s i → FollowsTable i s (exec i s)) : FollowsTable i s (exec i s) := by
  by_cases h : IndexOut s i
  · rw [hout h]
    exact .fails .indexRange (firstCause_indexRange h hres)
  · exact hin h

/-- A command that passes its checks and then reads the one word it needs follows the table. -/
theorem readThen_followsTable {b : Memory} {k : Nat} (f : Codeword → Word) (hc : NoCause i s)
    (hr : ReadsWritten s i ↔ b.written k = true) : FollowsTable i s (readThen s b k f) := by
  rcases readThen_cases s b k f with ⟨v, hv, h⟩ | ⟨hv, h⟩ <;> rw [h]
  · exact .succeeds hc (hr.2 (by rw [Memory.written, hv, Option.isSome_some])) rfl
  · exact .faults hc (by simp [hr, Memory.written, hv])

/-- RDTX and RDRX follow the table: a checked read of TX or of RX. -/
theorem checkedRead_followsTable {b : Memory} {k : Nat} (f : Codeword → Word) (hres : ¬ Reserved i)
    (hidx : IndexOut s i ↔ s.nWords ≤ k) (hc : ¬ IndexOut s i → NoCause i s)
    (hr : ReadsWritten s i ↔ b.written k = true) (hexec : exec i s = s.checkedRead (wordOperand s k) b f) :
    FollowsTable i s (exec i s) := by
  refine .of_index hres (fun hk => ?_) fun hk => ?_ <;> rw [hexec]
  · exact State.checkedRead_of_le f b (hidx.1 hk)
  · rw [State.checkedRead_of_lt f b (Nat.not_le.1 (mt hidx.2 hk))]
    exact readThen_followsTable f (hc hk) hr

/-- One case per command. A cause that a command cannot have is `False` by definition, so that `id` refutes it. -/
theorem exec_followsTable (i : Instr) (s : State) : FollowsTable i s (exec i s) := by
  cases i with
  | nop => exact .succeeds (noCause_of_checks id id id nofun nofun nofun) trivial rfl
  | syn c => exact .succeeds (noCause_of_checks id id id nofun nofun nofun) trivial rfl
  | chk => exact .succeeds (noCause_of_checks id id id nofun nofun nofun) trivial rfl
  | reservedE x => exact .fails .illegalCmd (firstCause_illegalCmd trivial)
  | reservedF x => exact .fails .illegalCmd (firstCause_illegalCmd trivial)
  | enc v =>
    rcases Nat.lt_or_ge 255 v with hv | hv
    · rw [exec_enc_of_lt s hv]
      exact .fails .invalidInput (firstCause_invalidInput hv id id)
    · rw [exec_enc_of_le s hv]
      exact .succeeds (noCause_of_checks id id (Nat.not_lt.2 hv) nofun nofun nofun) trivial rfl
  | dec c =>
    cases hm : s.stat.mok with
    | true =>
      rw [exec_dec_of_mok c hm]
      exact .succeeds (noCause_of_checks id id id nofun (fun _ _ => hm) nofun) trivial rfl
    | false =>
      rw [exec_dec_of_not_mok c hm]
      exact .fails .matrixInvalid (firstCause_matrixInvalid (.inl ⟨c, rfl⟩) id hm)
  | col k =>
    refine .of_index id (exec_col_of_le s) fun hk => ?_
    rw [exec_col_of_lt s (Nat.not_le.1 hk)]
    exact .succeeds (noCause_of_checks id hk id nofun nofun nofun) trivial rfl
  | row k =>
    refine .of_index id (exec_row_of_le s) fun hk => ?_
    rw [exec_row_of_lt s (Nat.not_le.1 hk)]
    exact .succeeds (noCause_of_checks id hk id nofun nofun nofun) trivial rfl
  | logrd e =>
    refine .of_index id (exec_logrd_of_le s) fun he => ?_
    rw [exec_logrd_of_lt s (Nat.not_le.1 he)]
    exact .succeeds (noCause_of_checks id he id nofun nofun nofun) trivial rfl
  | wrtx k c =>
    refine .of_index id (exec_wrtx_of_le s c) fun hk => ?_
    rw [exec_wrtx_of_lt s c (Nat.not_le.1 hk)]
    exact .succeeds (noCause_of_checks id hk id nofun nofun nofun) trivial rfl
  | encw k v =>
    refine .of_index id (exec_encw_of_le s) fun hk => ?_
    rcases Nat.lt_or_ge 255 v with hv | hv
    · rw [exec_encw_of_lt_of_lt s (Nat.not_le.1 hk) hv]
      exact .fails .invalidInput (firstCause_invalidInput hv id hk)
    · rw [exec_encw_of_lt_of_le s (Nat.not_le.1 hk) hv]
      exact .succeeds (noCause_of_checks id hk (Nat.not_lt.2 hv) nofun nofun nofun) trivial rfl
  | rdtx k =>
    exact checkedRead_followsTable zext32 id Iff.rfl (fun hk => noCause_of_checks id hk id nofun nofun nofun) Iff.rfl
      (exec_rdtx s k)
  | rdrx k =>
    exact checkedRead_followsTable zext32 id Iff.rfl (fun hk => noCause_of_checks id hk id nofun nofun nofun) Iff.rfl
      (exec_rdrx s k)
  | decw k =>
    refine .of_index id exec_decw_of_le fun hk => ?_
    cases hm : s.stat.mok with
    | true =>
      rw [exec_decw_of_mok (Nat.not_le.1 hk) hm]
      exact readThen_followsTable _ (noCause_of_checks id hk id nofun nofun fun _ _ => hm) Iff.rfl
    | false =>
      rw [exec_decw_of_not_mok (Nat.not_le.1 hk) hm]
      exact .fails .matrixInvalid (firstCause_matrixInvalid (.inr ⟨k, rfl⟩) hk hm)
  | inj l n =>
    refine .of_index id exec_inj_of_gt fun hl => ?_
    rcases Nat.lt_or_ge (16 * l) n with hn | hn
    · rw [exec_inj_of_capacity (Nat.not_lt.1 hl) hn]
      exact .fails .capacity (firstCause_capacity hn (Nat.not_lt.1 hl))
    · have hc : NoCause (.inj l n) s := noCause_of_checks id hl id (fun _ _ hi => by cases hi; exact hn) nofun nofun
      by_cases hw : ∀ k < l, s.txw k = true
      · obtain ⟨cs, -, h⟩ := exec_inj_of_written (Nat.not_lt.1 hl) hn hw
        rw [h]
        exact .succeeds hc hw rfl
      · rw [exec_inj_of_unwritten (Nat.not_lt.1 hl) hn hw]
        exact .faults hc hw

end Outcomes

/-! ## An outcome that follows the table tells which row applied -/

section FollowsTable

variable {i : Instr} {s : State} {o : Host.Outcome State Fault Refusal}

theorem FollowsTable.fails_iff (h : FollowsTable i s o) (e : ErrCode) :
    (∃ t, o = .next t ∧ t.stat.err = true ∧ t.stat.ecode = e.code) ↔ FirstCause i s e := by
  cases h with
  | fails e₀ h₀ =>
    constructor
    · rintro ⟨_, ⟨⟩, -, hcode⟩
      exact ErrCode.code_injective hcode ▸ h₀
    · intro he
      exact ⟨_, rfl, rfl, congrArg ErrCode.code (h₀.unique he)⟩
  | succeeds hc _ ht =>
    refine iff_of_false ?_ hc.not_firstCause
    rintro ⟨_, ⟨⟩, herr, -⟩
    exact Bool.eq_false_iff.1 ht herr
  | faults hc _ => exact iff_of_false nofun hc.not_firstCause

theorem FollowsTable.succeeds_iff (h : FollowsTable i s o) :
    (∃ t, o = .next t ∧ t.stat.err = false) ↔ NoCause i s ∧ ReadsWritten s i := by
  cases h with
  | fails e h₀ =>
    refine iff_of_false ?_ fun hn => hn.1.not_firstCause h₀
    rintro ⟨_, ⟨⟩, ⟨⟩⟩
  | succeeds hc hr ht => exact iff_of_true ⟨_, rfl, ht⟩ ⟨hc, hr⟩
  | faults _ hr => exact iff_of_false nofun fun hn => hr hn.2

theorem FollowsTable.faults_iff (h : FollowsTable i s o) :
    o = .fault .unwrittenRead ↔ NoCause i s ∧ ¬ ReadsWritten s i := by
  cases h with
  | fails e h₀ => exact iff_of_false nofun fun hn => hn.1.not_firstCause h₀
  | succeeds _ hr _ => exact iff_of_false nofun fun hn => hn.2 hr
  | faults hc hr => exact iff_of_true rfl ⟨hc, hr⟩

theorem FollowsTable.not_refused (h : FollowsTable i s o) (r : Refusal) : o ≠ .refused r := by
  cases h <;> exact nofun

end FollowsTable

/-! ## The obligations -/

/-- Settles O16: every command's outcome follows the error table, and such an outcome tells which row applied. -/
theorem outcomesFollowTheErrorTableInOrder : Obligations.OutcomesFollowTheErrorTableInOrder := fun i s =>
  have h := exec_followsTable i s
  ⟨h.fails_iff, h.succeeds_iff, h.faults_iff, h.not_refused⟩

/-- Settles O17: of the two ways a command word ends, only `State.fail` leaves ERR 1, and it is the error response. -/
theorem aFailureChangesOnlyTheResponse : Obligations.AFailureChangesOnlyTheResponse := by
  intro s t w rest hp h herr
  rcases step_command_ends hp h with ⟨e, rfl⟩ | ⟨u, r, rfl, -⟩
  · exact ⟨e, rfl⟩
  · cases herr

/-- Settles O10: with an empty port there is no event to act on. -/
theorem idleBlockKeepsItsState : Obligations.IdleBlockKeepsItsState := by
  intro s hp
  rw [step, serve, hp]

end Sys2Proof

/-! # Steps at the port: a command word that decodes, and a reset while a command executes -/

namespace Sys2Proof.Machine

/-- R262: the step is the reset of R52, and the word it aborts leaves nothing. -/
theorem step_resetDuring {s : State} {w : Word} {rest : List HostEvent} (hp : s.port = .resetDuring w :: rest) :
    step s = .next ({ s with port := rest } : State).resetEvent := by
  simp only [step, serve, hp, runEvent]

end Sys2Proof.Machine

namespace Sys2Proof

open Sys2Proof.Machine

/-- Settles O9: the step takes the word from the port and runs what it decodes to. -/
theorem stepRunsTheDecodedCommand : Obligations.StepRunsTheDecodedCommand := fun _ _ _ _ hp hdec =>
  step_of_decode_ok hp hdec

/-- Settles O12: both steps are the reset of the state with the event removed. -/
theorem resetDuringACommandAbortsIt : Obligations.ResetDuringACommandAbortsIt := by
  intro s w rest hp
  have hreset : step { s with port := .reset :: rest } = .next ({ s with port := rest } : State).resetEvent :=
    step_reset rfl
  rw [step_resetDuring hp, hreset]

end Sys2Proof
